-- ==== Sys2Proof/Word.lean ====
section
/-! DEFINITION. The word types of C2U-CORE (spec/00_scope.md R34): every value the spec adds, shifts or masks is a bit vector. -/

namespace Sys2Proof

/-- One byte, the width of every register and access (R46); read as `u8`, or as `s8` through `BitVec.toInt`. -/
abbrev Byte := BitVec 8

/-- A driver command word `{op[1:0], ack, wdata[7:0]}` (R61). -/
abbrev DrvWord := BitVec 11

end Sys2Proof
end

