-- ==== Sys2Proof/Syntax.lean ====
section
/-! DEFINITION. The operations of C2U-CORE: one constructor per row of spec/opcode_table.json (spec/30_encoding.md R75), and
the words that name them, one form per format (R60 to R63, R69, R70). -/

namespace Sys2Proof

/-- The operations of the table. -/
inductive Instr where
  /-- HOSTCMD `INIT` (R172). -/
  | init
  /-- HOSTCMD `POLL` (R173). -/
  | poll
  /-- DRVCMD `START` (R90). -/
  | start
  /-- DRVCMD `WRITE b` (R91). -/
  | write (b : Byte)
  /-- DRVCMD `READ a`, `ack` is 1 for acknowledge (R92). -/
  | read (ack : Bool)
  /-- DRVCMD `STOP` (R93). -/
  | stop
  /-- DRVRSP: the answer `Done(status, rdata)` to a wait (R62, R94). -/
  | wait (status rdata : Byte)
  /-- ADDRBYTE with direction 0: the transaction `SEND` to address `a` (R111). -/
  | send (a : BitVec 7)
  /-- ADDRBYTE with direction 1: the transaction `RECEIVE` from address `a` (R112). -/
  | receive (a : BitVec 7)
  /-- PHASE `INIT` (R172). -/
  | phInit
  /-- PHASE `REQUEST` (R173). -/
  | phRequest
  /-- PHASE `SETTLE` (R175). -/
  | phSettle
  /-- PHASE `FETCH` (R174). -/
  | phFetch
  /-- PHASE `DECODE` (R176). -/
  | phDecode
  /-- PHASE `SIGCHK` (R177). -/
  | phSigchk
  /-- PHASE `COMMIT` (R178). -/
  | phCommit
  /-- DPOP `DEC i` (R131). -/
  | dec (i : BitVec 3)
  /-- DPOP `FIELD f` (R141). -/
  | field (f : BitVec 3)
  /-- DPOP `CENTER a` (R143). -/
  | center (a : BitVec 2)
  /-- DPOP `CAL a` (R145). -/
  | cal (a : BitVec 2)
  /-- DPOP `TRIG t` (R150). -/
  | trig (t : BitVec 1)
  /-- DPOP `SETBTN i, v` (R160). -/
  | setbtn (i : BitVec 4) (v : Bool)
  /-- DPOP `PACK` (R162). -/
  | pack
deriving DecidableEq, Repr

/-- A word of one of the six formats. The formats belong to different places of the block (the command port, the driver
port, the answer port, the first byte of a transaction, the register PH, the names of R70), so a word is only meaningful with
its format. -/
inductive OpWord where
  /-- `cmd_op[1:0]` (R60). -/
  | hostCmd (w : BitVec 2)
  /-- `drv_cmd[10:0]` (R61). -/
  | drvCmd (w : BitVec 11)
  /-- `{drv_done, drv_status, drv_rdata}` (R62). -/
  | drvRsp (w : BitVec 17)
  /-- The address byte (R63). -/
  | addrByte (w : BitVec 8)
  /-- A code of `PH` (R69). -/
  | phase (w : BitVec 4)
  /-- A datapath operation's name (R70). -/
  | dpop (w : BitVec 8)
deriving DecidableEq, Repr

end Sys2Proof
end

