-- ==== Sys2Proof/WellFormed.lean ====
section
/-! DEFINITION. Which operations occur: the operand values that spec/opcode_table.json and R70 say do not occur are refused. -/

namespace Sys2Proof

/-- `DEC` takes a byte index 0..5 and `FIELD` a field 0..5 (R70); every other operand value of the table occurs. -/
def Instr.wellFormed : Instr → Bool
  | .init => true
  | .poll => true
  | .start => true
  | .write _ => true
  | .read _ => true
  | .stop => true
  | .wait _ _ => true
  | .send _ => true
  | .receive _ => true
  | .phInit => true
  | .phRequest => true
  | .phSettle => true
  | .phFetch => true
  | .phDecode => true
  | .phSigchk => true
  | .phCommit => true
  | .dec i => decide (i.toNat < 6)
  | .field f => decide (f.toNat < 6)
  | .center _ => true
  | .cal _ => true
  | .trig _ => true
  | .setbtn _ _ => true
  | .pack => true

end Sys2Proof
end

