-- ==== Sys2Proof/Decode.lean ====
section
/-! DEFINITION. The decoder and the encoder of the six formats (spec/30_encoding.md R60 to R63, R69, R70, R72), the rows of
spec/opcode_table.json as data, and the reading of a table word that comes without its format. -/

namespace Sys2Proof

/-- Why a word names no operation. -/
inductive DecodeError where
  /-- `cmd_op` is 00 or 11 (R72 a): the command port ignores it. -/
  | reservedHostCommand
  /-- A driver word other than the five forms of R61 (R72 b). -/
  | noDriverCommand
  /-- A driver answer with `drv_done = 0`: no answer yet (R62). -/
  | noAnswer
  /-- The code of IDLE: no phase runs (R69). -/
  | idlePhase
  /-- A code of `PH` that never occurs (R69, R72 b). -/
  | reservedPhase
  /-- A byte index or a field number that does not occur (R70, the table). -/
  | indexDoesNotOccur
  /-- Argument bits that R70 gives as 0 are not 0. -/
  | reservedArgument
  /-- DPOP `op = 111` (R72 b). -/
  | reservedOperation
deriving DecidableEq, Repr

/-- R60. -/
def decodeHostCmd (w : BitVec 2) : Except DecodeError Instr :=
  if w = 0b01#2 then .ok .init
  else if w = 0b10#2 then .ok .poll
  else .error .reservedHostCommand

/-- R61: unused fields are 0. -/
def decodeDrvCmd (w : BitVec 11) : Except DecodeError Instr :=
  let op := w.extractLsb' 9 2
  let ack := w.getLsbD 8
  let wdata := w.extractLsb' 0 8
  if op = 0b00#2 ∧ ack = false ∧ wdata = 0x00#8 then .ok .start
  else if op = 0b01#2 ∧ ack = false then .ok (.write wdata)
  else if op = 0b10#2 ∧ wdata = 0x00#8 then .ok (.read ack)
  else if op = 0b11#2 ∧ ack = false ∧ wdata = 0x00#8 then .ok .stop
  else .error .noDriverCommand

/-- R62. -/
def decodeDrvRsp (w : BitVec 17) : Except DecodeError Instr :=
  if w.getLsbD 16 then .ok (.wait (w.extractLsb' 8 8) (w.extractLsb' 0 8))
  else .error .noAnswer

/-- R63: bits 7:1 are the address, bit 0 the direction. -/
def decodeAddrByte (w : BitVec 8) : Except DecodeError Instr :=
  if w.getLsbD 0 then .ok (.receive (w.extractLsb' 1 7)) else .ok (.send (w.extractLsb' 1 7))

/-- R69. -/
def decodePhase (w : BitVec 4) : Except DecodeError Instr :=
  if w = 0b0000#4 then .error .idlePhase
  else if w = 0b0001#4 then .ok .phInit
  else if w = 0b0010#4 then .ok .phRequest
  else if w = 0b0011#4 then .ok .phSettle
  else if w = 0b0100#4 then .ok .phFetch
  else if w = 0b0101#4 then .ok .phDecode
  else if w = 0b0110#4 then .ok .phSigchk
  else if w = 0b0111#4 then .ok .phCommit
  else .error .reservedPhase

/-- R70: `{op[2:0], arg[4:0]}`. -/
def decodeDpop (w : BitVec 8) : Except DecodeError Instr :=
  let op := w.extractLsb' 5 3
  let arg3 := w.extractLsb' 0 3
  let arg2 := w.extractLsb' 0 2
  if op = 0b000#3 then
    if w.extractLsb' 3 2 = 0#2 then
      if arg3.toNat < 6 then .ok (.dec arg3) else .error .indexDoesNotOccur
    else .error .reservedArgument
  else if op = 0b001#3 then
    if w.extractLsb' 3 2 = 0#2 then
      if arg3.toNat < 6 then .ok (.field arg3) else .error .indexDoesNotOccur
    else .error .reservedArgument
  else if op = 0b010#3 then
    if w.extractLsb' 2 3 = 0#3 then .ok (.center arg2) else .error .reservedArgument
  else if op = 0b011#3 then
    if w.extractLsb' 2 3 = 0#3 then .ok (.cal arg2) else .error .reservedArgument
  else if op = 0b100#3 then
    if w.extractLsb' 1 4 = 0#4 then .ok (.trig (w.extractLsb' 0 1)) else .error .reservedArgument
  else if op = 0b101#3 then .ok (.setbtn (w.extractLsb' 1 4) (w.getLsbD 0))
  else if op = 0b110#3 then
    if w.extractLsb' 0 5 = 0#5 then .ok .pack else .error .reservedArgument
  else .error .reservedOperation

/-- Decoding is total: every word of every format gives an operation or a named error. -/
def decode : OpWord → Except DecodeError Instr
  | .hostCmd w => decodeHostCmd w
  | .drvCmd w => decodeDrvCmd w
  | .drvRsp w => decodeDrvRsp w
  | .addrByte w => decodeAddrByte w
  | .phase w => decodePhase w
  | .dpop w => decodeDpop w

/-- A driver command word from its fields (R61). -/
def drvWord (op : BitVec 2) (ack : Bool) (wdata : Byte) : DrvWord := op ++ BitVec.ofBool ack ++ wdata

/-- The address byte of a transaction (R63). -/
def addrByte (a : BitVec 7) (dir : Bool) : Byte := a ++ BitVec.ofBool dir

/-- The word of an operation, from the same tables of the spec. -/
def encode : Instr → OpWord
  | .init => .hostCmd 0b01#2
  | .poll => .hostCmd 0b10#2
  | .start => .drvCmd (drvWord 0b00#2 false 0x00#8)
  | .write b => .drvCmd (drvWord 0b01#2 false b)
  | .read a => .drvCmd (drvWord 0b10#2 a 0x00#8)
  | .stop => .drvCmd (drvWord 0b11#2 false 0x00#8)
  | .wait st rd => .drvRsp (1#1 ++ st ++ rd)
  | .send a => .addrByte (addrByte a false)
  | .receive a => .addrByte (addrByte a true)
  | .phInit => .phase 0b0001#4
  | .phRequest => .phase 0b0010#4
  | .phSettle => .phase 0b0011#4
  | .phFetch => .phase 0b0100#4
  | .phDecode => .phase 0b0101#4
  | .phSigchk => .phase 0b0110#4
  | .phCommit => .phase 0b0111#4
  | .dec i => .dpop (0b00000#5 ++ i)
  | .field f => .dpop (0b00100#5 ++ f)
  | .center a => .dpop (0b010000#6 ++ a)
  | .cal a => .dpop (0b011000#6 ++ a)
  | .trig t => .dpop (0b1000000#7 ++ t)
  | .setbtn i v => .dpop (0b101#3 ++ i ++ BitVec.ofBool v)
  | .pack => .dpop 0b11000000#8

/-- The formats of the table, by name. -/
inductive Format where
  | hostCmd
  | drvCmd
  | drvRsp
  | addrByte
  | phase
  | dpop
deriving DecidableEq, Repr

/-- The format of a word. -/
def OpWord.format : OpWord → Format
  | .hostCmd _ => .hostCmd
  | .drvCmd _ => .drvCmd
  | .drvRsp _ => .drvRsp
  | .addrByte _ => .addrByte
  | .phase _ => .phase
  | .dpop _ => .dpop

/-- The bits of a word as a number, bit 0 its least significant bit. -/
def OpWord.value : OpWord → Nat
  | .hostCmd w => w.toNat
  | .drvCmd w => w.toNat
  | .drvRsp w => w.toNat
  | .addrByte w => w.toNat
  | .phase w => w.toNat
  | .dpop w => w.toNat

/-- One row of spec/opcode_table.json. -/
structure OpcodeRow where
  mnemonic : String
  format : Format
  mask : Nat
  pattern : Nat
deriving DecidableEq, Repr

/-- The table's row of an operation: its `mask` and `match`. -/
def Instr.row : Instr → OpcodeRow
  | .init => ⟨"INIT", .hostCmd, 0x3, 0x1⟩
  | .poll => ⟨"POLL", .hostCmd, 0x3, 0x2⟩
  | .start => ⟨"START", .drvCmd, 0x7FF, 0x0⟩
  | .write _ => ⟨"WRITE", .drvCmd, 0x700, 0x200⟩
  | .read _ => ⟨"READ", .drvCmd, 0x6FF, 0x400⟩
  | .stop => ⟨"STOP", .drvCmd, 0x7FF, 0x600⟩
  | .wait _ _ => ⟨"WAIT", .drvRsp, 0x10000, 0x10000⟩
  | .send _ => ⟨"SEND", .addrByte, 0x1, 0x0⟩
  | .receive _ => ⟨"RECEIVE", .addrByte, 0x1, 0x1⟩
  | .phInit => ⟨"PH_INIT", .phase, 0xF, 0x1⟩
  | .phRequest => ⟨"PH_REQUEST", .phase, 0xF, 0x2⟩
  | .phSettle => ⟨"PH_SETTLE", .phase, 0xF, 0x3⟩
  | .phFetch => ⟨"PH_FETCH", .phase, 0xF, 0x4⟩
  | .phDecode => ⟨"PH_DECODE", .phase, 0xF, 0x5⟩
  | .phSigchk => ⟨"PH_SIGCHK", .phase, 0xF, 0x6⟩
  | .phCommit => ⟨"PH_COMMIT", .phase, 0xF, 0x7⟩
  | .dec _ => ⟨"DEC", .dpop, 0xF8, 0x0⟩
  | .field _ => ⟨"FIELD", .dpop, 0xF8, 0x20⟩
  | .center _ => ⟨"CENTER", .dpop, 0xFC, 0x40⟩
  | .cal _ => ⟨"CAL", .dpop, 0xFC, 0x60⟩
  | .trig _ => ⟨"TRIG", .dpop, 0xFE, 0x80⟩
  | .setbtn _ _ => ⟨"SETBTN", .dpop, 0xE0, 0xA0⟩
  | .pack => ⟨"PACK", .dpop, 0xFF, 0xC0⟩

/-- Is there an operation with this word? -/
def OpWord.names (w : OpWord) : Bool :=
  match decode w with
  | .ok _ => true
  | .error _ => false

/-- A table word that comes as `nbits` bits with value `w` and without its format (DESIGN CHOICE, log entry 5). The sizes of DRVCMD and
DRVRSP, in bits or in whole bytes, name their formats, and so do 2 and 4 bits. One byte may be of four formats: the first of
HOSTCMD, PHASE, DPOP and ADDRBYTE whose width holds `w` and in which `w` names an operation. -/
def tableWord (nbits w : Nat) : Option OpWord :=
  if nbits = 2 then
    if w < 4 then some (.hostCmd (BitVec.ofNat 2 w)) else none
  else if nbits = 4 then
    if w < 16 then some (.phase (BitVec.ofNat 4 w)) else none
  else if nbits = 8 then
    if w < 4 ∧ (OpWord.hostCmd (BitVec.ofNat 2 w)).names then some (.hostCmd (BitVec.ofNat 2 w))
    else if w < 16 ∧ (OpWord.phase (BitVec.ofNat 4 w)).names then some (.phase (BitVec.ofNat 4 w))
    else if w < 256 ∧ (OpWord.dpop (BitVec.ofNat 8 w)).names then some (.dpop (BitVec.ofNat 8 w))
    else if w < 256 then some (.addrByte (BitVec.ofNat 8 w))
    else none
  else if nbits = 11 ∨ nbits = 16 then
    if w < 2048 then some (.drvCmd (BitVec.ofNat 11 w)) else none
  else if nbits = 17 ∨ nbits = 24 then
    if w < 131072 then some (.drvRsp (BitVec.ofNat 17 w)) else none
  else none

/-- What the decoder reads from a table word. -/
def decodeTableWord (nbits w : Nat) : Option Instr :=
  match tableWord nbits w with
  | some ow =>
    match decode ow with
    | .ok i => some i
    | .error _ => none
  | none => none

end Sys2Proof
end

