-- ==== Sys2Proof/Config.lean ====
section
/-! DEFINITION. What a build of the block fixes (the parameters of spec/00_scope.md R6) and the free values: what the host
and the environment put on the input ports in a tick. -/

namespace Sys2Proof

/-- The two decoded bytes that carry digital inputs (R65, R68). -/
inductive ButtonByte where
  | d4
  | d5
deriving DecidableEq, Repr, Inhabited

/-- One entry of `BTN_SRC`: the decoded byte and the bit in it that feed a logical button (R68). -/
structure ButtonSource where
  byte : ButtonByte
  bit : Fin 8
deriving DecidableEq, Repr, Inhabited

/-- The report (R14, R66) by its three groups of fields. `trg` is a pair of registers only in a build with triggers;
in the other builds nothing reads or writes it (DESIGN CHOICE, log entry 19). -/
structure Report where
  ax : Vector Byte 4
  trg : Vector Byte 2
  btn : Vector Byte 2
deriving DecidableEq, Repr

/-- The OPEN parameters of R6, constants of one build. -/
structure Config where
  /-- `DEV_ADDR` -/
  devAddr : BitVec 7
  /-- `ST_START` -/
  stStart : Byte
  /-- `ST_RSTART` -/
  stRstart : Byte
  /-- `ST_SLAW_ACK` -/
  stSlawAck : Byte
  /-- `ST_TXDATA_ACK` -/
  stTxdataAck : Byte
  /-- `ST_SLAR_ACK` -/
  stSlarAck : Byte
  /-- `ST_RXDATA_ACK` -/
  stRxdataAck : Byte
  /-- `ST_RXDATA_NACK` -/
  stRxdataNack : Byte
  /-- `TIMEOUT`, ticks -/
  timeout : Nat
  /-- `SETTLE`, ticks -/
  settle : Nat
  /-- `RECV_STOP` -/
  recvStop : Bool
  /-- `CAL_SEED` -/
  calSeed : Nat
  /-- `AXIS_INVERT`, bit `a` for axis `a` -/
  axisInvert : BitVec 4
  /-- `HAS_TRIGGERS` -/
  hasTriggers : Bool
  /-- `BTN_SRC` -/
  btnSrc : Vector ButtonSource 15
  /-- `REPORT_INIT` -/
  reportInit : Report
  /-- `F_CLK`, hertz -/
  fClk : Nat
  /-- `F_BUS`, hertz -/
  fBus : Nat
deriving DecidableEq, Repr

/-- The levels on the input ports in one tick (R10). -/
structure Inputs where
  rst : Bool
  cmdValid : Bool
  cmdOp : BitVec 2
  rdAddr : BitVec 5
  drvDone : Bool
  drvStatus : Byte
  drvRdata : Byte
deriving DecidableEq, Repr, Inhabited

/-- FREE VALUE (DESIGN CHOICE, log entry 3): what the host and the environment put on the input ports in the `n`-th tick for which no
input was placed. R94 and U8: a draw under no law. It has no body, so nothing can be proved of it. -/
opaque Config.freeInputs : Nat → Inputs

/-- FREE VALUE (DESIGN CHOICE, log entry 24): whether a read at an address, while the DECODE, SIGCHK or COMMIT step that follows
the `n`-th driver word runs, gives the byte's new value or its old one (R241, D31, U6). It has no body, so nothing can be proved of
it. -/
opaque Config.freeStepRead : Nat → BitVec 5 → Bool

end Sys2Proof
end

