-- ==== Sys2Proof/Machine/Build.lean ====
section
/-! DEFINITION. The build: the default parameters of spec/00_scope.md R6, the constraints on them, the report size (R7) and the
bus clock divider (spec/41_bus_transactions.md R120). -/

namespace Sys2Proof

/-- The default `BTN_SRC` of R6 and R68: the bits of `{d[5], d[4]}` in ascending order, without `d[4][0]`. -/
def Config.defaultButtonSources : Vector ButtonSource 15 :=
  #v[⟨.d4, 1⟩, ⟨.d4, 2⟩, ⟨.d4, 3⟩, ⟨.d4, 4⟩, ⟨.d4, 5⟩, ⟨.d4, 6⟩, ⟨.d4, 7⟩,
     ⟨.d5, 0⟩, ⟨.d5, 1⟩, ⟨.d5, 2⟩, ⟨.d5, 3⟩, ⟨.d5, 4⟩, ⟨.d5, 5⟩, ⟨.d5, 6⟩, ⟨.d5, 7⟩]

/-- The defaults of R6: the build of `State.reset` (DESIGN CHOICE, log entry 2). -/
def Config.default : Config where
  devAddr := 0x52#7
  stStart := 0x08#8
  stRstart := 0x10#8
  stSlawAck := 0x18#8
  stTxdataAck := 0x28#8
  stSlarAck := 0x40#8
  stRxdataAck := 0x50#8
  stRxdataNack := 0x58#8
  timeout := 1000
  settle := 100
  recvStop := true
  calSeed := 32
  axisInvert := 0b1010#4
  hasTriggers := false
  btnSrc := Config.defaultButtonSources
  reportInit := ⟨#v[0x80#8, 0x80#8, 0x80#8, 0x80#8], #v[0x00#8, 0x00#8], #v[0x00#8, 0x00#8]⟩
  fClk := 12000000
  fBus := 100000

/-- The report size `R` (R7). -/
def Config.reportSize (c : Config) : Nat := if c.hasTriggers then 8 else 6

/-- The divisor for prescaler index `k`, when the clock ratio is at least 16 (R120): `P(k) = 4^k`. -/
def Config.divisor (c : Config) (k : Nat) : Nat := (c.fClk / c.fBus - 16) / (2 * 4 ^ k)

/-- The divider of R120: the least prescaler index whose divisor is at most 255; none is the configuration error. -/
def Config.divider (c : Config) : Option (Byte × BitVec 2) :=
  if c.fBus = 0 ∨ c.fClk / c.fBus < 16 then none
  else if c.divisor 0 ≤ 255 then some (BitVec.ofNat 8 (c.divisor 0), 0#2)
  else if c.divisor 1 ≤ 255 then some (BitVec.ofNat 8 (c.divisor 1), 1#2)
  else if c.divisor 2 ≤ 255 then some (BitVec.ofNat 8 (c.divisor 2), 2#2)
  else if c.divisor 3 ≤ 255 then some (BitVec.ofNat 8 (c.divisor 3), 3#2)
  else none

/-- The constraints of R6 and of R120: a parameter choice that violates one builds no hardware (U2, U3). -/
def Config.wf (c : Config) : Bool :=
  decide (1 ≤ c.timeout) && decide (1 ≤ c.calSeed) && decide (c.calSeed ≤ 127) && decide (1 ≤ c.fBus) &&
    c.divider.isSome && decide c.btnSrc.toList.Nodup

/-- `BRDIV` (R120); a build has a divider, the other case is never built. -/
def Config.brdiv (c : Config) : Byte :=
  match c.divider with
  | some (d, _) => d
  | none => 0#8

/-- `PRESC` (R120). -/
def Config.presc (c : Config) : BitVec 2 :=
  match c.divider with
  | some (_, p) => p
  | none => 0#2

end Sys2Proof
end

