-- ==== Sys2Proof/Machine/State.lean ====
section
/-! DEFINITION. The state of C2U-CORE as plain data (spec/10_state.md): every register and port of the spec, the build's
parameters, and the model's own fields (the coming inputs, the driver trace, the transient values, the operation slot). -/

namespace Sys2Proof.Machine

/-- The register `PH` (R16); codes 8 to 15 are never written and are not representable (U11). -/
inductive Phase where
  | idle
  | init
  | request
  | settle
  | fetch
  | decode
  | sigchk
  | commit
deriving DecidableEq, Repr

/-- The register `TX` (R17). -/
inductive TxPos where
  | tOff
  | tStart
  | tAddr
  | tData
deriving DecidableEq, Repr

/-- The register `ERRCLASS` (R24, R200). -/
inductive ErrClass where
  | noError
  | busPhaseError
  | busTimeoutError
  | deviceFailureSignature
deriving DecidableEq, Repr

/-- The outcome of a wait (R34, R94). -/
inductive Answer where
  | done (status rdata : Byte)
  | timeout
deriving DecidableEq, Repr

/-- The transient values of R28 that the operations of the table hand to one another and that no register of the spec holds
(DESIGN CHOICE, log entry 6): the field value `F`, the centred value `v`, the byte `CAL` returns, and the boolean a transaction returns. -/
structure Latch where
  field : Byte
  centred : Byte
  out : Byte
  result : Bool
deriving DecidableEq, Repr

/-- The state. -/
structure State where
  /-- The build's parameters (R6, R27); no step changes them. -/
  cfg : Config
  /-- `PH` (R16). -/
  ph : Phase
  /-- `TX` (R17). -/
  tx : TxPos
  /-- `IDX` (R18). -/
  idx : BitVec 3
  /-- `TMR` (R19). -/
  tmr : Nat
  /-- `RAW[0..5]` (R13). -/
  raw : Vector Byte 6
  /-- `REPORT` (R14). -/
  report : Report
  /-- `CALMAX[0..3]`, read as signed (R15). -/
  calMax : Vector Byte 4
  /-- `CALMIN[0..3]`, read as signed (R15). -/
  calMin : Vector Byte 4
  /-- `OK` (R20). -/
  ok : Bool
  /-- `RESTART_REQ` (R21). -/
  restartReq : Bool
  /-- `INITED` (R22). -/
  inited : Bool
  /-- `BUSOWN` (R23). -/
  busOwn : Bool
  /-- `ERRCLASS` (R24). -/
  errClass : ErrClass
  /-- `ERRPH` (R24). -/
  errPh : Phase
  /-- `ERRTX` (R24). -/
  errTx : TxPos
  /-- `ERRIDX` (R24). -/
  errIdx : BitVec 3
  /-- Output port `done` in the last tick (R10). -/
  done : Bool
  /-- Output port `drv_valid` in the last tick (R10). -/
  drvValid : Bool
  /-- Output port `drv_cmd` (R10); it keeps the last word issued (DEDUCED, log entry 8). -/
  drvCmd : DrvWord
  /-- The levels sampled from the input ports in the current tick (R10). -/
  inp : Inputs
  /-- MODEL'S OWN (DESIGN CHOICE, log entry 3): the inputs placed for the coming ticks, the next tick's first. -/
  inputs : List Inputs
  /-- MODEL'S OWN (DESIGN CHOICE, log entry 3): how many free inputs have been drawn. -/
  drawn : Nat
  /-- MODEL'S OWN (DESIGN CHOICE, log entry 7): the driver trace of R74, oldest word first. -/
  trace : List DrvWord
  /-- MODEL'S OWN (DESIGN CHOICE, log entry 6): the transient values. -/
  latch : Latch
  /-- MODEL'S OWN (DESIGN CHOICE, log entry 4): an operation word placed from outside. -/
  slot : Option OpWord
deriving DecidableEq, Repr

/-- No operation of the block is a fault (spec/60_exceptions.md R222), so there is no fault reason. -/
inductive Fault where
deriving DecidableEq, Repr

/-- Why the model gives no next state. All are safe: the spec gives no effect there. -/
inductive Refusal where
  /-- An operation without a meaning yet, raised by `exec` for that arm. Safe. -/
  | notModelled (mnemonic : String)
  /-- Raised by `step`: the parameters violate a constraint of R6 or R120, so the block is not built (U2, U3). Safe. -/
  | notBuilt
  /-- Raised by `step` and by the phase operations: a combination of PH, TX and IDX outside R33 (U11). Safe. -/
  | unreachableSequencer
  /-- Raised by `step`: the slot holds a word that names no operation (R72 b). Safe. -/
  | reservedWord
  /-- Raised by a transaction phase's operation while the transaction of another phase runs (R16, R64). Safe. -/
  | phaseNotRunning
  /-- Raised by `DEC` and `FIELD`: a number that does not occur (R70). Safe. -/
  | indexDoesNotOccur
  /-- Raised by `TRIG`, and by `FIELD` of a trigger, in a build without triggers: the operation does not exist (R150). Safe. -/
  | noTriggers
  /-- Raised by `CAL` and `COMMIT`: the divisor is zero, which R32 (a) excludes in every reachable state (U3). Safe. -/
  | calibrationBoundZero
deriving DecidableEq, Repr

/-- Every register at its reset value (R31, R230), for a build `c`. The model's own fields are empty. -/
def State.resetOf (c : Config) : State where
  cfg := c
  ph := .idle
  tx := .tOff
  idx := 0#3
  tmr := 0
  raw := #v[0x00#8, 0x00#8, 0x00#8, 0x00#8, 0x00#8, 0x00#8]
  report := c.reportInit
  calMax := #v[BitVec.ofNat 8 c.calSeed, BitVec.ofNat 8 c.calSeed, BitVec.ofNat 8 c.calSeed, BitVec.ofNat 8 c.calSeed]
  calMin := #v[-BitVec.ofNat 8 c.calSeed, -BitVec.ofNat 8 c.calSeed, -BitVec.ofNat 8 c.calSeed,
    -BitVec.ofNat 8 c.calSeed]
  ok := false
  restartReq := false
  inited := false
  busOwn := false
  errClass := .noError
  errPh := .idle
  errTx := .tOff
  errIdx := 0#3
  done := false
  drvValid := false
  drvCmd := 0#11
  inp := ⟨false, false, 0#2, 0#5, false, 0#8, 0#8⟩
  inputs := []
  drawn := 0
  trace := []
  latch := ⟨0#8, 0#8, 0#8, false⟩
  slot := none

/-- The machine right after reset (R31), in the default build of R6 (DESIGN CHOICE, log entry 2). -/
def State.reset : State := State.resetOf Config.default

end Sys2Proof.Machine
end

