-- ==== Sys2Proof/Machine/Flags.lean ====
section
/-! DEFINITION. What is computed from the registers without changing them: the register codes (spec/30_encoding.md R69), the
flags and status views (spec/10_state.md R25 to R27), the read map (spec/20_memory.md R40, R41), the legal sequencer
combinations (R33), and the status a wait expects (R71). -/

namespace Sys2Proof.Machine

/-- The code of `PH` (R69). -/
def Phase.code : Phase → BitVec 4
  | .idle => 0#4
  | .init => 1#4
  | .request => 2#4
  | .settle => 3#4
  | .fetch => 4#4
  | .decode => 5#4
  | .sigchk => 6#4
  | .commit => 7#4

/-- The code of `TX` (R69). -/
def TxPos.code : TxPos → BitVec 2
  | .tOff => 0#2
  | .tStart => 1#2
  | .tAddr => 2#2
  | .tData => 3#2

/-- The code of `ERRCLASS` (R200). -/
def ErrClass.code : ErrClass → BitVec 2
  | .noError => 0#2
  | .busPhaseError => 1#2
  | .busTimeoutError => 2#2
  | .deviceFailureSignature => 3#2

/-- `BUSY`, and the port `busy` (R25). -/
def State.busy (s : State) : Bool := decide (s.ph ≠ .idle)

/-- The port `cmd_ready` (R10). -/
def State.cmdReady (s : State) : Bool := decide (s.ph = .idle) && !s.restartReq

/-- `STATUS` (R26). -/
def State.statusByte (s : State) : Byte :=
  0#3 ++ BitVec.ofBool s.busOwn ++ BitVec.ofBool s.inited ++ BitVec.ofBool s.restartReq ++ BitVec.ofBool s.ok ++
    BitVec.ofBool s.busy

/-- `ERR` (R26). -/
def State.errByte (s : State) : Byte := s.errTx.code ++ s.errPh.code ++ s.errClass.code

/-- `SEQ` (R26). -/
def State.seqByte (s : State) : Byte := 0#2 ++ s.tx.code ++ s.ph.code

/-- `SEQIDX` (R26). -/
def State.seqIdxByte (s : State) : Byte := 0#1 ++ s.errIdx ++ 0#1 ++ s.idx

/-- The bytes of `REPORT[0..R-1]` in order (R14, R66). -/
def State.reportBytes (s : State) : List Byte :=
  if s.cfg.hasTriggers then s.report.ax.toList ++ s.report.trg.toList ++ s.report.btn.toList
  else s.report.ax.toList ++ s.report.btn.toList

/-- `MemRead(addr, 1)` (R40, R41). -/
def State.memRead (s : State) (addr : BitVec 5) : Byte :=
  match addr.toNat with
  | 0x00 => s.report.ax[0]
  | 0x01 => s.report.ax[1]
  | 0x02 => s.report.ax[2]
  | 0x03 => s.report.ax[3]
  | 0x04 => if s.cfg.hasTriggers then s.report.trg[0] else s.report.btn[0]
  | 0x05 => if s.cfg.hasTriggers then s.report.trg[1] else s.report.btn[1]
  | 0x06 => if s.cfg.hasTriggers then s.report.btn[0] else 0x00#8
  | 0x07 => if s.cfg.hasTriggers then s.report.btn[1] else 0x00#8
  | 0x08 => s.raw[0]
  | 0x09 => s.raw[1]
  | 0x0A => s.raw[2]
  | 0x0B => s.raw[3]
  | 0x0C => s.raw[4]
  | 0x0D => s.raw[5]
  | 0x0E => 0x00#8
  | 0x0F => 0x00#8
  | 0x10 => s.calMax[0]
  | 0x11 => s.calMax[1]
  | 0x12 => s.calMax[2]
  | 0x13 => s.calMax[3]
  | 0x14 => s.calMin[0]
  | 0x15 => s.calMin[1]
  | 0x16 => s.calMin[2]
  | 0x17 => s.calMin[3]
  | 0x18 => s.statusByte
  | 0x19 => s.errByte
  | 0x1A => s.seqByte
  | 0x1B => s.seqIdxByte
  | 0x1C => BitVec.ofNat 8 s.cfg.reportSize
  | 0x1D => 0#1 ++ s.cfg.devAddr
  | 0x1E => s.cfg.brdiv
  | _ => 0#6 ++ s.cfg.presc

/-- The addresses of the read map, rising. -/
def readAddresses : List (BitVec 5) :=
  [0#5, 1#5, 2#5, 3#5, 4#5, 5#5, 6#5, 7#5, 8#5, 9#5, 10#5, 11#5, 12#5, 13#5, 14#5, 15#5,
   16#5, 17#5, 18#5, 19#5, 20#5, 21#5, 22#5, 23#5, 24#5, 25#5, 26#5, 27#5, 28#5, 29#5, 30#5, 31#5]

/-- The read map as a list of cells, without the bytes that read 0x00 (DESIGN CHOICE, log entry 23). -/
def State.readMap (s : State) : List Host.Cell :=
  readAddresses.filterMap fun a => if s.memRead a = 0x00#8 then none else some (a.toNat, s.memRead a)

/-- The canonical form of a list of cells: addresses strictly rising, no entry equal to 0x00. -/
abbrev Memory.wf (m : List Host.Cell) : Prop :=
  m.Pairwise (fun x y => x.1 < y.1) ∧ ∀ x ∈ m, x.2 ≠ 0x00#8

/-- The byte a list of cells holds at an address; an unlisted address reads 0x00. -/
def Memory.read (m : List Host.Cell) (a : Nat) : Byte := (m.lookup a).getD 0x00#8

/-- Does the phase run a transaction (R64)? -/
def Phase.transacts : Phase → Bool
  | .init => true
  | .request => true
  | .fetch => true
  | .idle => false
  | .settle => false
  | .decode => false
  | .sigchk => false
  | .commit => false

/-- The direction of the phase's transaction: 1 is a read (R64). -/
def Phase.dir (p : Phase) : Bool := decide (p = .fetch)

/-- The data bytes the phase sends (R64); none outside INIT and REQUEST. -/
def Phase.sendBytes : Phase → List Byte
  | .init => [0x40#8, 0x00#8]
  | .request => [0x00#8]
  | .idle => []
  | .settle => []
  | .fetch => []
  | .decode => []
  | .sigchk => []
  | .commit => []

/-- The number of bytes a `RECEIVE` takes (R64, R112). -/
def receiveLength : Nat := 6

/-- The combinations of R33. -/
def State.seqLegal (s : State) : Bool :=
  match s.ph, s.tx with
  | .idle, .tOff => decide (s.idx = 0#3)
  | .settle, .tOff => decide (s.idx = 0#3)
  | .decode, .tOff => decide (s.idx = 0#3)
  | .sigchk, .tOff => decide (s.idx = 0#3)
  | .commit, .tOff => decide (s.idx = 0#3)
  | .init, .tStart => decide (s.idx = 0#3)
  | .init, .tAddr => decide (s.idx = 0#3)
  | .init, .tData => decide (s.idx.toNat ≤ 1)
  | .request, .tStart => decide (s.idx = 0#3)
  | .request, .tAddr => decide (s.idx = 0#3)
  | .request, .tData => decide (s.idx = 0#3)
  | .fetch, .tStart => decide (s.idx = 0#3)
  | .fetch, .tAddr => decide (s.idx = 0#3)
  | .fetch, .tData => decide (s.idx.toNat ≤ 5)
  | _, _ => false

/-- The status codes a wait expects (R71), by position, direction and byte index. -/
def expectedStatus (c : Config) (tx : TxPos) (dir : Bool) (idx : Nat) : List Byte :=
  match tx with
  | .tOff => []
  | .tStart => [c.stStart, c.stRstart]
  | .tAddr => if dir then [c.stSlarAck] else [c.stSlawAck]
  | .tData =>
    if dir then (if idx + 1 < receiveLength then [c.stRxdataAck] else [c.stRxdataNack]) else [c.stTxdataAck]

end Sys2Proof.Machine
end

