-- ==== Sys2Proof/Machine/Operands.lean ====
section
/-! DEFINITION. The datapath as pure functions: the decoder (spec/42_decoder.md), the assembly of the analog fields
(spec/30_encoding.md R67), centring and calibration (spec/43_axis_calibration.md), and the button field
(spec/44_button_packer.md). -/

namespace Sys2Proof.Machine

/-- `DEC` (R131): the addition wraps at 8 bits. -/
def decByte (x : Byte) : Byte := (x ^^^ 0x17#8) + 0x17#8

/-- `ENC`, the peripheral's transform that `DEC` reverses (R133); not part of the block. -/
def encByte (y : Byte) : Byte := (y - 0x17#8) ^^^ 0x17#8

/-- `DECODE6` (R132). -/
def decodeSix (r : Vector Byte 6) : Vector Byte 6 :=
  #v[decByte r[0], decByte r[1], decByte r[2], decByte r[3], decByte r[4], decByte r[5]]

/-- The failure signature: all six bytes are `0xFF` (R177). -/
def isSignature (r : Vector Byte 6) : Bool :=
  r[0] == 0xFF#8 && r[1] == 0xFF#8 && r[2] == 0xFF#8 && r[3] == 0xFF#8 && r[4] == 0xFF#8 && r[5] == 0xFF#8

/-- `F0` (R67). -/
def fieldF0 (d : Vector Byte 6) : Byte := (d[0].extractLsb' 0 6).setWidth 8 <<< 2

/-- `F1` (R67). -/
def fieldF1 (d : Vector Byte 6) : Byte := (d[1].extractLsb' 0 6).setWidth 8 <<< 2

/-- `A2` (R67). -/
def fragmentA2 (d : Vector Byte 6) : BitVec 5 :=
  d[0].extractLsb' 6 2 ++ d[1].extractLsb' 6 2 ++ d[2].extractLsb' 7 1

/-- `F2` (R67). -/
def fieldF2 (d : Vector Byte 6) : Byte := (fragmentA2 d).setWidth 8 <<< 3

/-- `F3` (R67). -/
def fieldF3 (d : Vector Byte 6) : Byte := (d[2].extractLsb' 0 5).setWidth 8 <<< 3

/-- `LT` (R67). -/
def fragmentLT (d : Vector Byte 6) : BitVec 5 := d[2].extractLsb' 5 2 ++ d[3].extractLsb' 5 3

/-- `RT` (R67). -/
def fragmentRT (d : Vector Byte 6) : BitVec 5 := d[3].extractLsb' 0 5

/-- `T0` (R67). -/
def fieldT0 (d : Vector Byte 6) : Byte := (fragmentLT d).setWidth 8 <<< 3

/-- `T1` (R67). -/
def fieldT1 (d : Vector Byte 6) : Byte := (fragmentRT d).setWidth 8 <<< 3

/-- The field of an axis (R140). -/
def axisField (d : Vector Byte 6) (a : Fin 4) : Byte :=
  match a with
  | 0 => fieldF0 d
  | 1 => fieldF1 d
  | 2 => fieldF2 d
  | 3 => fieldF3 d

/-- The field of a trigger (R150). -/
def triggerField (d : Vector Byte 6) (t : Fin 2) : Byte :=
  match t with
  | 0 => fieldT0 d
  | 1 => fieldT1 d

/-- `CENTER` (R143): `F - 128`, or `(0xFF - F) - 128` on an inverted axis, as `s8`. -/
def centre (inverted : Bool) (F : Byte) : Byte :=
  BitVec.ofInt 8 (if inverted then (0xFF - (F.toNat : Int)) - 128 else (F.toNat : Int) - 128)

/-- `round_haz` (R34, R146): the nearest integer to `p / q`, ties away from zero. -/
def roundHaz (p q : Int) : Int := p.sign * ((2 * (p.natAbs : Int) + q) / (2 * q))

/-- Signed maximum of two bytes (R34). -/
def smax (x y : Byte) : Byte := if x.toInt < y.toInt then y else x

/-- Signed minimum of two bytes (R34). -/
def smin (x y : Byte) : Byte := if y.toInt < x.toInt then y else x

/-- Steps 2 and 3 of `CAL` (R145), for bounds that step 1 has already updated. -/
def rescale (mx mn v : Byte) : Byte :=
  BitVec.ofInt 8
    ((if 0 < v.toInt then roundHaz (v.toInt * 127) mx.toInt else roundHaz (v.toInt * 128) (-mn.toInt)) + 128)

/-- The byte `CAL` returns (R145), for the bounds before step 1. -/
def calByte (mx mn v : Byte) : Byte := rescale (smax mx v) (smin mn v) v

/-- Is the divisor `CAL` uses positive? R32 (a): always so in a reachable state. -/
def calDefined (mn v : Byte) : Bool := decide (0 < v.toInt ∨ (smin mn v).toInt < 0)

/-- The deviation `v` of axis `a` (R178: `FIELD`, then `CENTER`). -/
def axisDeviation (c : Config) (d : Vector Byte 6) (a : Fin 4) : Byte :=
  centre (c.axisInvert.getLsbD a) (axisField d a)

/-- A byte with bit `k` set to `v` (R160). -/
def setBit (b : Byte) (k : Nat) (v : Bool) : Byte := if v then b ||| (1#8 <<< k) else b &&& ~~~(1#8 <<< k)

/-- `SETBTN` on the button field (R160): bit `i mod 8` of byte `i div 8`. -/
def setButton (btn : Vector Byte 2) (i : BitVec 4) (v : Bool) : Vector Byte 2 :=
  if i.toNat < 8 then #v[setBit btn[0] i.toNat v, btn[1]] else #v[btn[0], setBit btn[1] (i.toNat - 8) v]

/-- The source bit of a logical button in the decoded bytes (R68). -/
def sourceBit (d : Vector Byte 6) (src : ButtonSource) : Bool :=
  match src.byte with
  | .d4 => d[4].getLsbD src.bit
  | .d5 => d[5].getLsbD src.bit

/-- The logical buttons in the order in which `PACK` writes them (R162). -/
def logicalButtons : List (Fin 15) := [0, 1, 2, 3, 4, 5, 6, 7, 8, 9, 10, 11, 12, 13, 14]

/-- `PACK` (R162): fifteen inverted source bits (R161), then index 15 cleared. -/
def packButtons (c : Config) (d : Vector Byte 6) (btn : Vector Byte 2) : Vector Byte 2 :=
  setButton
    (logicalButtons.foldl (fun b (i : Fin 15) => setButton b (BitVec.ofNat 4 i.val) (!sourceBit d c.btnSrc[i])) btn) 15#4
    false

end Sys2Proof.Machine
end

