-- ==== Sys2Proof/Machine/Ops.lean ====
section
/-! DEFINITION. The named operations over the registers: the ports in a tick, reset (spec/70_reset_and_hazards.md R230), issuing
a driver command (spec/40_bus_driver.md R90 to R93), the error record and the abort path (spec/60_exceptions.md R203, R204,
R206), `Complete` (spec/45_poll_cycle.md R171), and one step of a transaction (spec/41_bus_transactions.md R114 to R117). -/

namespace Sys2Proof.Machine

/-- The three outcomes of an operation or a step. -/
abbrev Result := Host.Outcome State Fault Refusal

/-- The start of a tick: the one-tick outputs drop (R10, R31) and the input ports are sampled, from the placed inputs or, past
their end, from the free ones. -/
def State.sample (s : State) : State :=
  match s.inputs with
  | x :: rest => { s with inp := x, inputs := rest, done := false, drvValid := false }
  | [] => { s with inp := Config.freeInputs s.drawn, drawn := s.drawn + 1, done := false, drvValid := false }

/-- A tick with `rst = 1` (R230): every register takes its reset value; the build, the ports' inputs and the record of the words
issued so far are no registers. -/
def State.doReset (s : State) : State :=
  { State.resetOf s.cfg with inp := s.inp, inputs := s.inputs, drawn := s.drawn, trace := s.trace }

/-- `DrvIssue` (R34): one driver word on the port. -/
def State.drvIssue (s : State) (w : DrvWord) : State :=
  { s with drvValid := true, drvCmd := w, trace := s.trace ++ [w] }

/-- `DrvIssue` of a command with a wait: the timer is loaded for the wait (R250). -/
def State.drvIssueTimed (s : State) (w : DrvWord) : State :=
  { s.drvIssue w with tmr := s.cfg.timeout }

/-- `START` (R90). -/
def State.issueStart (s : State) : State :=
  { s.drvIssueTimed (drvWord 0b00#2 false 0x00#8) with busOwn := true }

/-- `WRITE b` (R91). -/
def State.issueWrite (s : State) (b : Byte) : State := s.drvIssueTimed (drvWord 0b01#2 false b)

/-- `READ a` (R92). -/
def State.issueRead (s : State) (a : Bool) : State := s.drvIssueTimed (drvWord 0b10#2 a 0x00#8)

/-- `STOP` (R93): no wait. -/
def State.issueStop (s : State) : State :=
  { s.drvIssue (drvWord 0b11#2 false 0x00#8) with busOwn := false }

/-- The error record (R203): `PH`, `TX`, `IDX` as they stand when the error is raised. -/
def State.record (s : State) (c : ErrClass) : State :=
  { s with errClass := c, errPh := s.ph, errTx := s.tx, errIdx := s.idx }

/-- The clearing of the error record at acceptance (R170). -/
def State.clearRecord (s : State) : State :=
  { s with errClass := .noError, errPh := .idle, errTx := .tOff, errIdx := 0#3 }

/-- The end of a command: back to IDLE with the result in `OK` and `done` for one tick (R171). -/
def State.finish (s : State) (b : Bool) : State := { s with ok := b, ph := .idle, done := true }

/-- `Complete(b)` (R171). On entry to SETTLE the timer is loaded (R250). It is called in a phase that runs a transaction
only. -/
def State.complete (s : State) (b : Bool) : State :=
  match s.ph, b with
  | .init, true => { (s.finish true) with inited := true }
  | .init, false => s.finish false
  | .request, true => { s with ph := .settle, tmr := s.cfg.settle }
  | .request, false => s.finish false
  | .fetch, true => { s with ph := .decode }
  | .fetch, false => s.finish false
  | .idle, _ => s
  | .settle, _ => s
  | .decode, _ => s
  | .sigchk, _ => s
  | .commit, _ => s

/-- The end of a transaction with result `b`: `TX <- T_OFF; IDX <- 0`, and the boolean it returns (R28, R111, R112). -/
def State.endTransaction (s : State) (b : Bool) : State :=
  { s with tx := .tOff, idx := 0#3, latch := { s.latch with result := b } }

/-- The failing end of a transaction: record, STOP, `TX` off, `IDX` 0, result false (R204 without its last line). -/
def State.failTransaction (s : State) (c : ErrClass) : State := ((s.record c).issueStop).endTransaction false

/-- TAKING A BUS ERROR: the abort path (R204). Nothing is saved, control goes to IDLE. -/
def State.abort (s : State) (c : ErrClass) : State := (s.failTransaction c).complete false

/-- TAKING A DEVICE FAILURE (R206): record, the restart request, `OK` 0, back to IDLE. There is no return from either but
reset (R209). -/
def State.deviceFailure (s : State) : State :=
  { ((s.record .deviceFailureSignature).finish false) with restartReq := true }

/-- What `Verify` yields (R95). -/
inductive Verdict where
  | pass (rdata : Byte)
  | raise (c : ErrClass)
deriving DecidableEq, Repr

/-- `Verify` (R95). -/
def verify (a : Answer) (expected : List Byte) : Verdict :=
  match a with
  | .timeout => .raise .busTimeoutError
  | .done st rd => if st ∈ expected then .pass rd else .raise .busPhaseError

/-- `Begin(p)` (R114). -/
def State.beginPhase (s : State) (p : Phase) : State :=
  { s with ph := p, tx := .tStart, idx := 0#3 }.issueStart

/-- What follows a verified answer at the position `TX` (R114 to R117). -/
def State.advance (s : State) (r : Byte) : State :=
  match s.tx with
  | .tOff => s
  | .tStart => { s.issueWrite (addrByte s.cfg.devAddr s.ph.dir) with tx := .tAddr }
  | .tAddr =>
    if s.ph.dir then { s.issueRead (decide (1 < receiveLength)) with tx := .tData, idx := 0#3 }
    else { s.issueWrite (s.ph.sendBytes.getD 0 0x00#8) with tx := .tData, idx := 0#3 }
  | .tData =>
    if s.ph.dir then
      let t := { s with raw := s.raw.setIfInBounds s.idx.toNat r }
      if s.idx.toNat + 1 < receiveLength then
        { t.issueRead (decide (s.idx.toNat + 2 < receiveLength)) with idx := s.idx + 1#3 }
      else ((if s.cfg.recvStop then t.issueStop else t).endTransaction true).complete true
    else if s.idx.toNat + 1 < s.ph.sendBytes.length then
      { s.issueWrite (s.ph.sendBytes.getD (s.idx.toNat + 1) 0x00#8) with idx := s.idx + 1#3 }
    else ((s.issueStop).endTransaction true).complete true

/-- One step of the transaction in progress, with the answer its wait got (R94, R95, R114 to R117). -/
def State.answerStep (s : State) (a : Answer) : State :=
  match verify a (expectedStatus s.cfg s.tx s.ph.dir s.idx.toNat) with
  | .pass r => s.advance r
  | .raise c => s.abort c

/-- One tick of a wait (R250): `Done` if `drv_done` is sampled, in the last tick too (R208 b); else the timer counts down and
the wait times out when it reaches 0. -/
def State.waitTick (s : State) : State :=
  if s.inp.drvDone then s.answerStep (.done s.inp.drvStatus s.inp.drvRdata)
  else if s.tmr - 1 = 0 then { s with tmr := 0 }.answerStep .timeout
  else { s with tmr := s.tmr - 1 }

/-- One step of a phase that runs a transaction (R64): the transaction begins where none runs (R114), and otherwise its
wait takes one tick. -/
def State.transactionPhase (s : State) (p : Phase) : Result :=
  if s.tx = .tOff then .next (s.beginPhase p)
  else if s.ph ≠ p then .refused .phaseNotRunning
  else if s.seqLegal then .next s.waitTick
  else .refused .unreachableSequencer

/-- How a wait that spans ticks ends: an answer, or a reset in one of its ticks (R208 a, R232). -/
inductive WaitEnd where
  | answer (a : Answer)
  | reset
deriving DecidableEq, Repr

/-- `Wait()` over the coming ticks (R94, R250): at most `n` more ticks. -/
def waitTicks : Nat → State → WaitEnd × State
  | 0, s => (.answer .timeout, s)
  | n + 1, s =>
    let t := s.sample
    if t.inp.rst then (.reset, t)
    else if t.inp.drvDone then (.answer (.done t.inp.drvStatus t.inp.drvRdata), t)
    else if n = 0 then (.answer .timeout, { t with tmr := 0 })
    else waitTicks n { t with tmr := n }

/-- How a whole transaction ends: with its boolean, or dropped by a reset. -/
inductive TransactionEnd where
  | returned (b : Bool)
  | reset
deriving DecidableEq, Repr

/-- `Verify(Wait(), E)` inside a whole transaction, and what follows a pass (R111, R112); a raise ends it (R204). -/
def verifyWait (expected : List Byte) (k : Byte → State → TransactionEnd × State) (s : State) :
    TransactionEnd × State :=
  match waitTicks s.tmr s with
  | (.reset, t) => (.reset, t.doReset)
  | (.answer a, t) =>
    match verify a expected with
    | .pass r => k r t
    | .raise c => (.returned false, t.failTransaction c)

/-- The data bytes of a `SEND` from index `i` on, and its end (R111). -/
def sendData : List Byte → BitVec 3 → State → TransactionEnd × State
  | [], _, s => (.returned true, s.issueStop.endTransaction true)
  | b :: rest, i, s =>
    verifyWait [s.cfg.stTxdataAck] (fun _ t => sendData rest (i + 1#3) t)
      { s.issueWrite b with tx := .tData, idx := i }

/-- The data bytes of a `RECEIVE`, `n` still to come, and its end (R112, R113). -/
def receiveData : Nat → BitVec 3 → State → TransactionEnd × State
  | 0, _, s => (.returned true, (if s.cfg.recvStop then s.issueStop else s).endTransaction true)
  | n + 1, i, s =>
    verifyWait (if 0 < n then [s.cfg.stRxdataAck] else [s.cfg.stRxdataNack])
      (fun r t => receiveData n (i + 1#3) { t with raw := t.raw.setIfInBounds i.toNat r })
      { s.issueRead (decide (0 < n)) with tx := .tData, idx := i }

/-- `START` and the address byte, common to both transactions (R111, R112). -/
def openTransaction (a : BitVec 7) (dir : Bool) (k : State → TransactionEnd × State) (s : State) :
    TransactionEnd × State :=
  verifyWait [s.cfg.stStart, s.cfg.stRstart]
    (fun _ t =>
      verifyWait (if dir then [t.cfg.stSlarAck] else [t.cfg.stSlawAck]) (fun _ u => k u)
        { t.issueWrite (addrByte a dir) with tx := .tAddr, idx := 0#3 })
    { s with tx := .tStart, idx := 0#3 }.issueStart

/-- `SEND(addr, bytes)` as a function of the coming ticks (R111). -/
def sendAll (a : BitVec 7) (bytes : List Byte) (s : State) : TransactionEnd × State :=
  openTransaction a false (sendData bytes 0#3) s

/-- `RECEIVE(addr, RAW, 6)` as a function of the coming ticks (R112). -/
def receiveAll (a : BitVec 7) (s : State) : TransactionEnd × State :=
  openTransaction a true (receiveData receiveLength 0#3) s

/-- A transaction with `drv_cmd` words of the running phase `p` (R64), then `Complete` (R119). -/
def transactAndComplete (p : Phase) (s : State) : State :=
  match (if p.dir then receiveAll s.cfg.devAddr s else sendAll s.cfg.devAddr p.sendBytes s) with
  | (.returned b, t) => t.complete b
  | (.reset, t) => t

/-- The register writes of `CAL` on axis `a` (R145). -/
def State.widen (s : State) (a : Fin 4) (v : Byte) : State :=
  { s with
    calMax := s.calMax.set a.val (smax s.calMax[a] v)
    calMin := s.calMin.set a.val (smin s.calMin[a] v) }

/-- `CAL`'s byte for axis `a` on the current bounds (R145). -/
def State.calOutput (s : State) (a : Fin 4) (v : Byte) : Byte := calByte s.calMax[a] s.calMin[a] v

/-- Is `CAL` of axis `a` defined on `v` (R32 a)? -/
def State.calReady (s : State) (a : Fin 4) (v : Byte) : Bool := calDefined s.calMin[a] v

/-- The writes of the COMMIT step (R178): four axes, the triggers of a build that has them, the buttons; all at once (R48). -/
def State.commitReport (s : State) : State :=
  let v := axisDeviation s.cfg s.raw
  { s with
    calMax := #v[smax s.calMax[0] (v 0), smax s.calMax[1] (v 1), smax s.calMax[2] (v 2), smax s.calMax[3] (v 3)]
    calMin := #v[smin s.calMin[0] (v 0), smin s.calMin[1] (v 1), smin s.calMin[2] (v 2), smin s.calMin[3] (v 3)]
    report :=
      { ax := #v[s.calOutput 0 (v 0), s.calOutput 1 (v 1), s.calOutput 2 (v 2), s.calOutput 3 (v 3)]
        trg := if s.cfg.hasTriggers then #v[fieldT0 s.raw, fieldT1 s.raw] else s.report.trg
        btn := packButtons s.cfg s.raw s.report.btn } }

/-- Is `CAL` defined on all four deviations of the sample (R32 a)? -/
def State.commitReady (s : State) : Bool :=
  let v := axisDeviation s.cfg s.raw
  s.calReady 0 (v 0) && s.calReady 1 (v 1) && s.calReady 2 (v 2) && s.calReady 3 (v 3)

/-- The registers with the writes of the running DECODE, SIGCHK or COMMIT step made, all but the return to IDLE: an
implementation that spreads the step over ticks keeps `busy` 1 (R48, R250, D31). In the other phases, the registers as they
stand. -/
def State.stepWrites (s : State) : State :=
  match s.ph with
  | .decode => { s with raw := decodeSix s.raw }
  | .sigchk => if isSignature s.raw then { s.record .deviceFailureSignature with restartReq := true, ok := false } else s
  | .commit => { s.commitReport with ok := true }
  | .idle => s
  | .init => s
  | .request => s
  | .settle => s
  | .fetch => s

/-- The port `rd_data`: the byte at the sampled `rd_addr` as the registers stand (R10, R41). DESIGN CHOICE (DESIGN CHOICE, log entry 24): while a
DECODE, SIGCHK or COMMIT step runs, a byte it writes reads as its old or its new value and nothing says which (R241, D31), so for
`RAW` the wire byte or the decoded one (R245); the other bytes are the same in both. -/
def State.rdData (s : State) : Byte :=
  if Config.freeStepRead s.trace.length s.inp.rdAddr = true then s.stepWrites.memRead s.inp.rdAddr
  else s.memRead s.inp.rdAddr

end Sys2Proof.Machine
end

