-- ==== Sys2Proof/Machine/Clock.lean ====
section
/-! DEFINITION. What a tick runs: the phase that `PH` names, or in IDLE the command on the port (spec/45_poll_cycle.md R170, R171),
with reset before everything (spec/60_exceptions.md R208 a); and the operation slot of the model (DESIGN CHOICE, log entry 4). -/

namespace Sys2Proof.Machine

/-- What a step runs. -/
inductive Fetched where
  /-- An operation, on the state at which it runs. -/
  | run (i : Instr) (s : State)
  /-- No operation: the tick leaves this state. -/
  | quiet (s : State)
  /-- The model has no next state. -/
  | refuse (r : Refusal)
deriving DecidableEq, Repr

/-- The operation a phase runs (R69); IDLE runs none. -/
def Phase.operation : Phase → Option Instr
  | .idle => none
  | .init => some .phInit
  | .request => some .phRequest
  | .settle => some .phSettle
  | .fetch => some .phFetch
  | .decode => some .phDecode
  | .sigchk => some .phSigchk
  | .commit => some .phCommit

/-- The word in the slot is taken out and run in a tick of its own; a reserved command code is ignored (R72 a), as on the
port. -/
def State.fetchSlot (s : State) (w : OpWord) : Fetched :=
  let t := { s with slot := none, done := false, drvValid := false }
  match decode w with
  | .ok i => .run i t
  | .error .reservedHostCommand => .quiet t
  | .error _ => .refuse .reservedWord

/-- The command port in IDLE (R170, R72 a). -/
def State.fetchCommand (s : State) : Fetched :=
  if s.inp.cmdValid then
    match decode (.hostCmd s.inp.cmdOp) with
    | .ok i => .run i s
    | .error _ => .quiet s
  else .quiet s

/-- A tick of the hardware on the sampled state. -/
def State.fetchTick (s : State) : Fetched :=
  if s.inp.rst then .quiet s.doReset
  else if s.seqLegal then
    match s.ph.operation with
    | some i => .run i s
    | none => s.fetchCommand
  else .refuse .unreachableSequencer

/-- What the next step runs. -/
def State.fetch (s : State) : Fetched :=
  if s.cfg.wf then
    match s.slot with
    | some w => s.fetchSlot w
    | none => s.sample.fetchTick
  else .refuse .notBuilt

end Sys2Proof.Machine
end

