-- ==== Sys2Proof/Machine/Datapath.lean ====
section
/-! DEFINITION. The datapath operations as operations of their own (spec/30_encoding.md R70): their operands and results that no
register holds are in the latch (DESIGN CHOICE, log entry 6). -/

namespace Sys2Proof.Machine

/-- `DEC i`: byte `i` of `RAW` decoded in place (R131, R132). -/
def execDec (i : BitVec 3) (s : State) : Result :=
  if h : i.toNat < 6 then .next { s with raw := s.raw.set i.toNat (decByte s.raw[i.toNat]) }
  else .refused .indexDoesNotOccur

/-- `FIELD f`: the field into the latch (R141); the trigger fields exist in a build with triggers only (R67). -/
def execField (f : BitVec 3) (s : State) : Result :=
  if h : f.toNat < 4 then
    .next { s with latch := { s.latch with field := axisField s.raw ⟨f.toNat, h⟩ } }
  else if h : f.toNat - 4 < 2 then
    if s.cfg.hasTriggers then .next { s with latch := { s.latch with field := triggerField s.raw ⟨f.toNat - 4, h⟩ } }
    else .refused .noTriggers
  else .refused .indexDoesNotOccur

/-- `CENTER a`: the latched field value centred with the polarity of axis `a` (R143). -/
def execCenter (a : BitVec 2) (s : State) : Result :=
  .next { s with latch := { s.latch with centred := centre (s.cfg.axisInvert.getLsbD a.toNat) s.latch.field } }

/-- `CAL a` on the latched centred value (R145). -/
def execCal (a : BitVec 2) (s : State) : Result :=
  if s.calReady a.toFin s.latch.centred then
    .next { s.widen a.toFin s.latch.centred with latch := { s.latch with out := s.calOutput a.toFin s.latch.centred } }
  else .refused .calibrationBoundZero

/-- `TRIG t`: the field goes to `TRG[t]` unchanged (R150). -/
def execTrig (t : BitVec 1) (s : State) : Result :=
  if s.cfg.hasTriggers then
    .next { s with report := { s.report with trg := s.report.trg.set t.toNat (triggerField s.raw t.toFin) t.isLt } }
  else .refused .noTriggers

/-- `SETBTN i, v` (R160). -/
def execSetbtn (i : BitVec 4) (v : Bool) (s : State) : Result :=
  .next { s with report := { s.report with btn := setButton s.report.btn i v } }

/-- `PACK` (R162). -/
def execPack (s : State) : Result :=
  .next { s with report := { s.report with btn := packButtons s.cfg s.raw s.report.btn } }

end Sys2Proof.Machine
end

