-- ==== Sys2Proof/Machine/Driver.lean ====
section
/-! DEFINITION. The four driver commands and the answer to a wait (spec/40_bus_driver.md R90 to R95). -/

namespace Sys2Proof.Machine

/-- `START` (R90). -/
def execStart (s : State) : Result := .next s.issueStart

/-- `WRITE b` (R91). -/
def execWrite (b : Byte) (s : State) : Result := .next (s.issueWrite b)

/-- `READ a` (R92). -/
def execRead (ack : Bool) (s : State) : Result := .next (s.issueRead ack)

/-- `STOP` (R93). -/
def execStop (s : State) : Result := .next s.issueStop

/-- `WAIT`: the answer `Done(status, rdata)` to the wait in progress, verified and followed by the transaction's step (R94,
R95, R114 to R117). Where no wait is in progress nothing reads the answer (DEDUCED, log entry 15). -/
def execWait (status rdata : Byte) (s : State) : Result :=
  if s.tx = .tOff then .next s
  else if s.seqLegal then .next (s.answerStep (.done status rdata))
  else .refused .unreachableSequencer

end Sys2Proof.Machine
end

