-- ==== Sys2Proof/Machine/HostCommands.lean ====
section
/-! DEFINITION. The two host commands (spec/45_poll_cycle.md R170, R172, R173). -/

namespace Sys2Proof.Machine

/-- `INIT`: accepted when `cmd_ready`, else without any effect (R170); acceptance clears the error record and begins the INIT
phase (R172). -/
def execInit (s : State) : Result :=
  if s.cmdReady then .next (s.clearRecord.beginPhase .init) else .next s

/-- `POLL`: accepted when `cmd_ready`, else without any effect (R170); acceptance clears the error record and begins the
REQUEST phase (R173). `INITED` is not asked (R236). -/
def execPoll (s : State) : Result :=
  if s.cmdReady then .next (s.clearRecord.beginPhase .request) else .next s

end Sys2Proof.Machine
end

