-- ==== Sys2Proof/Machine/Phases.lean ====
section
/-! DEFINITION. One step of each phase (spec/45_poll_cycle.md R172 to R178; the ticks of a wait and of SETTLE:
spec/70_reset_and_hazards.md R250). -/

namespace Sys2Proof.Machine

/-- A step of the INIT phase (R172, R114 to R116). -/
def execPhInit (s : State) : Result := s.transactionPhase .init

/-- A step of the REQUEST phase (R173, R114 to R116). -/
def execPhRequest (s : State) : Result := s.transactionPhase .request

/-- A step of the SETTLE phase (R175, R250): the timer counts down and the fetch begins in the tick in which it reaches 0,
in the next tick when `SETTLE` is 0. -/
def execPhSettle (s : State) : Result :=
  if s.tmr - 1 = 0 then .next ({ s with tmr := 0 }.beginPhase .fetch) else .next { s with tmr := s.tmr - 1 }

/-- A step of the FETCH phase (R174, R114, R115, R117). -/
def execPhFetch (s : State) : Result := s.transactionPhase .fetch

/-- The DECODE step (R176). -/
def execPhDecode (s : State) : Result := .next { s with raw := decodeSix s.raw, ph := .sigchk }

/-- The SIGCHK step (R177). -/
def execPhSigchk (s : State) : Result :=
  if isSignature s.raw then .next s.deviceFailure else .next { s with ph := .commit }

/-- The COMMIT step (R178). -/
def execPhCommit (s : State) : Result :=
  if s.commitReady then .next (s.commitReport.finish true) else .refused .calibrationBoundZero

end Sys2Proof.Machine
end

