-- ==== Sys2Proof/Machine/Transactions.lean ====
section
/-! DEFINITION. The two transactions as whole operations over the coming ticks (spec/41_bus_transactions.md R111 to R113). -/

namespace Sys2Proof.Machine

/-- `SEND` to `a` of the bytes the phase fixes (R64, R111); outside INIT and REQUEST there are none (DEDUCED, log entry 16). -/
def execSend (a : BitVec 7) (s : State) : Result := .next (sendAll a s.ph.sendBytes s).2

/-- `RECEIVE` of six bytes from `a` into `RAW` (R112). -/
def execReceive (a : BitVec 7) (s : State) : Result := .next (receiveAll a s).2

end Sys2Proof.Machine
end

