-- ==== Sys2Proof/Machine/Dispatch.lean ====
section
/-! DEFINITION. The dispatch from an operation to its meaning, one arm per row of spec/opcode_table.json. -/

namespace Sys2Proof.Machine

def exec (i : Instr) (s : State) : Host.Outcome State Fault Refusal :=
  match i with
  | .init => Sys2Proof.Machine.execInit s
  | .poll => Sys2Proof.Machine.execPoll s
  | .start => Sys2Proof.Machine.execStart s
  | .write b => Sys2Proof.Machine.execWrite b s
  | .read ack => Sys2Proof.Machine.execRead ack s
  | .stop => Sys2Proof.Machine.execStop s
  | .wait status rdata => Sys2Proof.Machine.execWait status rdata s
  | .send a => Sys2Proof.Machine.execSend a s
  | .receive a => Sys2Proof.Machine.execReceive a s
  | .phInit => Sys2Proof.Machine.execPhInit s
  | .phRequest => Sys2Proof.Machine.execPhRequest s
  | .phSettle => Sys2Proof.Machine.execPhSettle s
  | .phFetch => Sys2Proof.Machine.execPhFetch s
  | .phDecode => Sys2Proof.Machine.execPhDecode s
  | .phSigchk => Sys2Proof.Machine.execPhSigchk s
  | .phCommit => Sys2Proof.Machine.execPhCommit s
  | .dec n => Sys2Proof.Machine.execDec n s
  | .field f => Sys2Proof.Machine.execField f s
  | .center a => Sys2Proof.Machine.execCenter a s
  | .cal a => Sys2Proof.Machine.execCal a s
  | .trig t => Sys2Proof.Machine.execTrig t s
  | .setbtn n v => Sys2Proof.Machine.execSetbtn n v s
  | .pack => Sys2Proof.Machine.execPack s

end Sys2Proof.Machine
end

