-- ==== Sys2Proof/Machine/Step.lean ====
section
/-! DEFINITION. One step: one tick of `clk` (spec/00_scope.md R34, spec/70_reset_and_hazards.md R250). -/

namespace Sys2Proof.Machine

/-- One step. -/
def step (s : State) : Host.Outcome State Fault Refusal :=
  match s.fetch with
  | .run i t => exec i t
  | .quiet t => .next t
  | .refuse r => .refused r

/-- The state in which the next step runs the table word `w` of `nbits` bits (DESIGN CHOICE, log entries 4 and 5). -/
def State.withFetchWord (s : State) (nbits w : Nat) : State := { s with slot := tableWord nbits w }

end Sys2Proof.Machine
end

