-- ==== Sys2Proof/Safety.lean ====
section
/-! DEFINITION. What the claims speak of: the invariants of spec/10_state.md R32 and R33 and of spec/41_bus_transactions.md R118,
the number of ticks a command can still take (spec/45_poll_cycle.md R171, spec/70_reset_and_hazards.md R251), and the state
without its diagnostic registers (R22 to R24). -/

namespace Sys2Proof.Machine

/-- R32 (a): the bounds enclose the seed, so neither divisor of `CAL` is zero. -/
def State.boundsEncloseSeed (s : State) : Prop :=
  ∀ a : Fin 4, (s.cfg.calSeed : Int) ≤ s.calMax[a].toInt ∧ s.calMin[a].toInt ≤ -(s.cfg.calSeed : Int)

/-- R32 (b): logical button 15 reads 0, if `REPORT_INIT` has it 0. -/
def State.buttonFifteenClear (s : State) : Prop :=
  s.cfg.reportInit.btn[1].getLsbD 7 = false → s.report.btn[1].getLsbD 7 = false

/-- R32 (d): a restart request stands in IDLE only. -/
def State.restartOnlyIdle (s : State) : Prop := s.restartReq = true → s.ph = .idle

/-- R23 and R118: a running transaction owns the bus, and with `RECV_STOP = 1` the bus is free when none runs. -/
def State.busOwnedExactly (s : State) : Prop :=
  (s.tx ≠ .tOff → s.busOwn = true) ∧ (s.cfg.recvStop = true → s.tx = .tOff → s.busOwn = false)

/-- R250: a running wait has between 1 and `TIMEOUT` ticks left, and SETTLE at most `SETTLE`. -/
def State.timerBounded (s : State) : Prop :=
  (s.tx ≠ .tOff → 1 ≤ s.tmr ∧ s.tmr ≤ s.cfg.timeout) ∧ (s.ph = .settle → s.tmr ≤ s.cfg.settle)

/-- R24, R203: the error record is clear while a command runs. -/
def State.recordClearWhileBusy (s : State) : Prop :=
  s.ph ≠ .idle → s.errClass = .noError ∧ s.errPh = .idle ∧ s.errTx = .tOff ∧ s.errIdx = 0#3

/-- The invariant of the hardware: a build that exists, no word in the model's slot, and the invariants above. -/
def State.Inv (s : State) : Prop :=
  s.cfg.wf = true ∧ s.slot = none ∧ s.seqLegal = true ∧ s.boundsEncloseSeed ∧ s.buttonFifteenClear ∧
    s.restartOnlyIdle ∧ s.busOwnedExactly ∧ s.timerBounded ∧ s.recordClearWhileBusy ∧ (s.done = true → s.ph = .idle)

/-- How many waits of the running transaction follow the one in progress (R64, R111, R112). -/
def State.waitsAfter (s : State) : Nat :=
  match s.ph, s.tx with
  | .init, .tStart => 3
  | .init, .tAddr => 2
  | .init, .tData => 1 - s.idx.toNat
  | .request, .tStart => 2
  | .request, .tAddr => 1
  | .fetch, .tStart => 7
  | .fetch, .tAddr => 6
  | .fetch, .tData => 5 - s.idx.toNat
  | _, _ => 0

/-- A bound on the ticks until the running command completes; 0 in IDLE. -/
def State.remainingTicks (s : State) : Nat :=
  match s.ph with
  | .idle => 0
  | .init => s.tmr + s.waitsAfter * s.cfg.timeout
  | .request => s.tmr + s.waitsAfter * s.cfg.timeout + (max 1 s.cfg.settle + 8 * s.cfg.timeout + 3)
  | .settle => max 1 s.tmr + 8 * s.cfg.timeout + 3
  | .fetch => s.tmr + s.waitsAfter * s.cfg.timeout + 3
  | .decode => 3
  | .sigchk => 2
  | .commit => 1

/-- The state without the registers that no rule reads: `INITED`, `BUSOWN` and the error record (R22 to R24). -/
def State.withoutDiagnostics (s : State) : State :=
  { s with inited := false, busOwn := false, errClass := .noError, errPh := .idle, errTx := .tOff, errIdx := 0#3 }

end Sys2Proof.Machine
end

