-- ==== Sys2Proof/Certificates/Slice0/Obligations.lean ====
section
/-! DEFINITION. The statements for the provers. Each docstring names the rules of spec/ it formalises and, where it rests on a choice
of the model, the log entry. -/

open Sys2Proof Sys2Proof.Machine

/-- R60 to R63, R69, R70: encoding drops no bit of any operation. -/
def Obligations.DecodeOfEncode : Prop :=
  ∀ i : Instr, i.wellFormed = true → decode (encode i) = .ok i

/-- R60 to R63, R69, R70: every word that names an operation is that operation's only word, and the operation occurs. -/
def Obligations.EncodeOfDecode : Prop :=
  ∀ (w : OpWord) (i : Instr), decode w = .ok i → i.wellFormed = true ∧ encode i = w

/-- R60, R61, R62, R63, R69, R70: some words of the spec (spec/95_test_vectors.md 3.2, 3.3) and what they name. -/
def Obligations.SpecWordsDecode : Prop :=
  decode (.hostCmd 0b01#2) = .ok .init ∧ decode (.hostCmd 0b10#2) = .ok .poll ∧
    decode (.drvCmd 0b01010100100#11) = .ok (.write 0xA4#8) ∧ decode (.drvCmd 0b10100000000#11) = .ok (.read true) ∧
    decode (.drvRsp 0b10101000000010001#17) = .ok (.wait 0x50#8 0x11#8) ∧
    decode (.addrByte 0b10100101#8) = .ok (.receive 0x52#7) ∧ decode (.phase 0b0111#4) = .ok .phCommit ∧
    decode (.dpop 0b10110011#8) = .ok (.setbtn 9#4 true)

/-- R61: the only driver words are START, WRITE `b`, READ with and without acknowledge, and STOP. -/
def Obligations.DriverWordsAreFive : Prop :=
  ∀ w : DrvWord, (∃ i, decode (.drvCmd w) = .ok i) ↔
    w = 0x000#11 ∨ (∃ b : Byte, w = 0x200#11 ||| b.setWidth 11) ∨ w = 0x500#11 ∨ w = 0x400#11 ∨ w = 0x600#11

/-- The model's own (log entry 4): a word placed in the slot that names an operation is what the next step runs. The
model's own in it: the operation slot (log entry 4). The model's own in it: the operation slot (log entry 4). -/
def Obligations.StepRunsPlacedWord : Prop :=
  ∀ (s : State) (w : OpWord) (i : Instr), s.cfg.wf = true → s.slot = some w → decode w = .ok i →
    step s = exec i { s with slot := none, done := false, drvValid := false }

/-- R16, R69, R171: in a tick without reset the step runs the operation whose PHASE word is the code in `PH`. The
model's own in it: how the ports' inputs are placed or drawn (log entry 3); that a state outside a legal build or R33
has no next state (log entries 10 and 11). The model's own in it: how the ports' inputs are placed or drawn (log entry
3); that a state outside a legal build or R33 has no next state (log entries 10 and 11). -/
def Obligations.StepRunsPhase : Prop :=
  ∀ (s : State) (i : Instr), s.cfg.wf = true → s.slot = none → s.seqLegal = true → s.sample.inp.rst = false →
    decode (.phase s.ph.code) = .ok i → step s = exec i s.sample

/-- R170, R72 (a): in IDLE the step runs the command whose HOSTCMD word is on the port with `cmd_valid`; with a
reserved word or without `cmd_valid` the tick only samples the ports. The model's own in it: how the ports' inputs are
placed or drawn (log entry 3); that a state outside a legal build or R33 has no next state (log entries 10 and 11). -/
def Obligations.StepRunsHostCommand : Prop :=
  ∀ s : State, s.cfg.wf = true → s.slot = none → s.seqLegal = true → s.sample.inp.rst = false → s.ph = .idle →
    (∀ i, s.sample.inp.cmdValid = true → decode (.hostCmd s.sample.inp.cmdOp) = .ok i → step s = exec i s.sample) ∧
    (s.sample.inp.cmdValid = false ∨ s.sample.inp.cmdOp = 0#2 ∨ s.sample.inp.cmdOp = 3#2 → step s = .next s.sample)

/-- R230, R31, R208 (a), R232: a tick with `rst = 1` leaves every register at its reset value, whatever the state; no
word is issued, so a transaction in flight gets no STOP. The model's own in it: how the ports' inputs are placed or
drawn (log entry 3); that the trace is kept over a reset (log entry 7). -/
def Obligations.ResetTick : Prop :=
  ∀ s : State, s.cfg.wf = true → s.slot = none → s.sample.inp.rst = true →
    ∃ t, step s = .next t ∧ t.ph = .idle ∧ t.tx = .tOff ∧ t.idx = 0#3 ∧ t.tmr = 0 ∧ (∀ j : Fin 6, t.raw[j] = 0x00#8) ∧
      t.report = s.cfg.reportInit ∧
      (∀ a : Fin 4, t.calMax[a].toInt = s.cfg.calSeed ∧ t.calMin[a].toInt = -(s.cfg.calSeed : Int)) ∧
      t.ok = false ∧ t.restartReq = false ∧ t.inited = false ∧ t.busOwn = false ∧ t.errClass = .noError ∧
      t.errPh = .idle ∧ t.errTx = .tOff ∧ t.errIdx = 0#3 ∧ t.done = false ∧ t.drvValid = false ∧ t.drvCmd = 0#11 ∧
      t.trace = s.trace ∧ t.cfg = s.cfg

/-- R31, R32: reset meets the invariant, in every build that exists, and in the default build. The model's own in it:
the build of `State.reset` (log entry 2). -/
def Obligations.ResetMeetsInvariant : Prop :=
  (∀ c : Config, c.wf = true → (State.resetOf c).Inv) ∧ State.reset.Inv

/-- R32, R33, R118, R203, R250: every step keeps the invariant of `State.Inv`. The model's own in it: the timer's
bounds (log entry 9). -/
def Obligations.StepKeepsInvariant : Prop :=
  ∀ s t : State, s.Inv → step s = .next t → t.Inv

/-- R222, R94: in every state that meets the invariant the step answers a next state, whatever the environment and the
host do. The model's own in it: how the ports' inputs are placed or drawn (log entry 3). -/
def Obligations.StepAlwaysAnswers : Prop :=
  ∀ s : State, s.Inv → ∃ t, step s = .next t

/-- R171, R250, R251: every tick of a running command lessens the bound on the ticks that remain. The model's own in
it: one tick each for DECODE, SIGCHK and COMMIT (log entry 24). The model's own in it: one tick each for DECODE,
SIGCHK and COMMIT (log entry 24); that STOP never blocks (log entry 20, U9). -/
def Obligations.BusyTickProgresses : Prop :=
  ∀ s t : State, s.Inv → s.ph ≠ .idle → step s = .next t → t.remainingTicks < s.remainingTicks

/-- R171, R94, R251: every command completes: from every state of a running command the machine is back in IDLE within
the bound, whatever the inputs; and an accepted POLL is bounded by `11 * TIMEOUT + SETTLE` and the single-tick steps.
The model's own in it: one tick each for DECODE, SIGCHK and COMMIT (log entry 24); that STOP never blocks (log entry
20, U9). -/
def Obligations.CommandsComplete : Prop :=
  (∀ s : State, s.Inv → s.ph ≠ .idle →
    ∃ k t, k ≤ s.remainingTicks ∧ core.run k s = .next t ∧ t.ph = .idle) ∧
  ∀ s t : State, s.Inv → s.cmdReady = true → exec .poll s = .next t →
    t.remainingTicks = 11 * s.cfg.timeout + max 1 s.cfg.settle + 3

/-- R206, R246, R242: with a restart request standing, a tick without reset changes no register, and neither command
is accepted. The model's own in it: how the ports' inputs are placed or drawn (log entry 3). -/
def Obligations.RestartRequestHoldsEverything : Prop :=
  (∀ s : State, s.Inv → s.restartReq = true → s.sample.inp.rst = false →
    step s = .next { s with
      inp := s.sample.inp, inputs := s.sample.inputs, drawn := s.sample.drawn, done := false, drvValid := false }) ∧
  ∀ s : State, s.restartReq = true → exec .init s = .next s ∧ exec .poll s = .next s

/-- R170, R242: a command presented while `cmd_ready = 0` has no effect: whatever stands on the command port, the tick
leaves the same state. The model's own in it: how the ports' inputs are placed or drawn (log entry 3). -/
def Obligations.CommandIgnoredWhenNotReady : Prop :=
  ∀ (s t : State) (x : Inputs) (rest : List Inputs) (v : Bool) (op : BitVec 2),
    s.slot = none → s.cmdReady = false → s.inputs = x :: rest → step s = .next t →
    step { s with inputs := { x with cmdValid := v, cmdOp := op } :: rest } =
      .next { t with inp := { t.inp with cmdValid := v, cmdOp := op } }

/-- R41, R47: a read has no side effect: whatever address is on `rd_addr`, the tick leaves the same state. The model's
own in it: how the ports' inputs are placed or drawn (log entry 3). The model's own in it: how the ports' inputs are
placed or drawn (log entry 3). -/
def Obligations.ReadHasNoSideEffect : Prop :=
  ∀ (s t : State) (x : Inputs) (rest : List Inputs) (addr : BitVec 5),
    s.slot = none → s.inputs = x :: rest → step s = .next t →
    step { s with inputs := { x with rdAddr := addr } :: rest } = .next { t with inp := { t.inp with rdAddr := addr } }

/-- R22, R23, R24: `INITED`, `BUSOWN` and the error record feed nothing: two states that differ in them only step to states that
differ in them only. -/
def Obligations.DiagnosticsFeedNothing : Prop :=
  ∀ s s' t : State, s.slot = none → s.withoutDiagnostics = s'.withoutDiagnostics → step s = .next t →
    ∃ t', step s' = .next t' ∧ t.withoutDiagnostics = t'.withoutDiagnostics

/-- R27: no step of any kind changes a build-time constant. The model's own in it: the operation slot (log entry 4).
-/
def Obligations.BuildIsConstant : Prop :=
  ∀ s t : State, step s = .next t → t.cfg = s.cfg

/-- R15, R151: without reset the bounds only widen. -/
def Obligations.BoundsOnlyWiden : Prop :=
  ∀ (s t : State) (a : Fin 4), s.slot = none → s.sample.inp.rst = false → step s = .next t →
    s.calMax[a].toInt ≤ t.calMax[a].toInt ∧ t.calMin[a].toInt ≤ s.calMin[a].toInt

/-- R14, R178, R180 (a), (b), (d): along any run without a reset and without a COMMIT step the report and the calibration bounds
stay what they were, so a cycle that fails leaves them unchanged. -/
def Obligations.ReportMovesAtCommitOnly : Prop :=
  ∀ (n : Nat) (s t : State), s.slot = none → core.run n s = .next t →
    (∀ m u, m < n → core.run m s = .next u → u.ph ≠ .commit ∧ u.sample.inp.rst = false) →
    t.report = s.report ∧ t.calMax = s.calMax ∧ t.calMin = s.calMin

/-- R13, R113, R117, R176: without reset `RAW` changes only in DECODE, and in FETCH only at index `IDX`, by a byte whose status
verified; and then it holds that byte. -/
def Obligations.RawWrittenByteByByte : Prop :=
  ∀ s t : State, s.slot = none → s.sample.inp.rst = false → step s = .next t →
    (s.ph ≠ .fetch → s.ph ≠ .decode → t.raw = s.raw) ∧
    (s.ph = .fetch → ∀ j : Fin 6, t.raw[j] ≠ s.raw[j] →
      j.val = s.idx.toNat ∧ s.tx = .tData ∧ s.sample.inp.drvDone = true ∧ t.raw[j] = s.sample.inp.drvRdata ∧
        s.sample.inp.drvStatus = (if s.idx.toNat < 5 then s.cfg.stRxdataAck else s.cfg.stRxdataNack))

/-- R20, R21, R22, R177: without reset `RESTART_REQ` is only ever set, by the SIGCHK phase on a signature; `INITED` only set, by the end
of a successful INIT; and `OK` changes only in a tick that pulses `done`. -/
def Obligations.FlagsHaveOneWriter : Prop :=
  ∀ s t : State, s.slot = none → s.sample.inp.rst = false → step s = .next t →
    (t.restartReq ≠ s.restartReq → t.restartReq = true ∧ s.ph = .sigchk ∧ ∀ j : Fin 6, s.raw[j] = 0xFF#8) ∧
    (t.inited ≠ s.inited → t.inited = true ∧ s.ph = .init ∧ t.ok = true ∧ t.done = true) ∧
    (t.done = false → t.ok = s.ok)

/-- R10, R208 (c): `done` is high exactly in the ticks that end a command: `PH` returns to IDLE and there is no reset. -/
def Obligations.DonePulsesAtCompletion : Prop :=
  ∀ s t : State, s.slot = none → step s = .next t →
    (t.done = true ↔ s.ph ≠ .idle ∧ t.ph = .idle ∧ s.sample.inp.rst = false)

/-- R10, R56, R61, R96: in a tick at most one driver word is issued, it is the one on the port, and it is one of the
five forms. The model's own in it: the trace (log entry 7). -/
def Obligations.OneDriverWordPerTick : Prop :=
  ∀ s t : State, s.slot = none → step s = .next t →
    (t.drvValid = false → t.trace = s.trace) ∧
    (t.drvValid = true → t.trace = s.trace ++ [t.drvCmd] ∧
      (t.drvCmd = 0x000#11 ∨ (∃ b : Byte, t.drvCmd = 0x200#11 ||| b.setWidth 11) ∨ t.drvCmd = 0x500#11 ∨
        t.drvCmd = 0x400#11 ∨ t.drvCmd = 0x600#11))

/-- R119: the two forms of a transaction agree: from the beginning of INIT, REQUEST or FETCH, some number of ticks
leads to exactly the state in which the whole transaction over the same inputs, then `Complete`, ends. The model's own
in it: the whole transaction as one operation over the coming ticks (log entry 17); the latch (log entry 6). The
model's own in it: the whole transaction as one operation over the coming ticks (log entry 17); the latch (log entry
6). -/
def Obligations.SmallStepsAgreeWithWhole : Prop :=
  ∀ (s : State) (p : Phase), p.transacts = true → s.cfg.wf = true → s.slot = none →
    ∃ k, core.run k (s.beginPhase p) = .next (transactAndComplete p { s with ph := p })

/-- R170, R172, R173, R114, R90: an accepted command clears the error record and issues START in its phase; everything
else is unchanged. The model's own in it: the trace (log entry 7). -/
def Obligations.CommandsAccepted : Prop :=
  ∀ s : State, s.ph = .idle → s.restartReq = false →
    exec .init s = .next { s with
      ph := .init, tx := .tStart, idx := 0#3, tmr := s.cfg.timeout, busOwn := true, errClass := .noError, errPh := .idle,
      errTx := .tOff, errIdx := 0#3, drvValid := true, drvCmd := 0x000#11, trace := s.trace ++ [0x000#11] } ∧
    exec .poll s = .next { s with
      ph := .request, tx := .tStart, idx := 0#3, tmr := s.cfg.timeout, busOwn := true, errClass := .noError,
      errPh := .idle, errTx := .tOff, errIdx := 0#3, drvValid := true, drvCmd := 0x000#11,
      trace := s.trace ++ [0x000#11] }

/-- R61, R90, R91, R92, R93, R250: the four driver commands: the word, `BUSOWN`, the timer, and nothing else. The
model's own in it: the trace (log entry 7). The model's own in it: the trace (log entry 7). -/
def Obligations.DriverCommandsIssue : Prop :=
  ∀ s : State,
    exec .start s = .next { s with
      drvValid := true, drvCmd := 0x000#11, trace := s.trace ++ [0x000#11], tmr := s.cfg.timeout, busOwn := true } ∧
    (∀ b : Byte, exec (.write b) s = .next { s with
      drvValid := true, drvCmd := 0x200#11 ||| b.setWidth 11, trace := s.trace ++ [0x200#11 ||| b.setWidth 11],
      tmr := s.cfg.timeout }) ∧
    exec (.read true) s = .next { s with
      drvValid := true, drvCmd := 0x500#11, trace := s.trace ++ [0x500#11], tmr := s.cfg.timeout } ∧
    exec (.read false) s = .next { s with
      drvValid := true, drvCmd := 0x400#11, trace := s.trace ++ [0x400#11], tmr := s.cfg.timeout } ∧
    exec .stop s = .next { s with
      drvValid := true, drvCmd := 0x600#11, trace := s.trace ++ [0x600#11], busOwn := false }

/-- R71: the status each wait expects. -/
def Obligations.StatusClasses : Prop :=
  ∀ (c : Config) (st : Byte),
    (∀ dir k, st ∈ expectedStatus c .tStart dir k ↔ st = c.stStart ∨ st = c.stRstart) ∧
    (∀ k, st ∈ expectedStatus c .tAddr false k ↔ st = c.stSlawAck) ∧
    (∀ k, st ∈ expectedStatus c .tAddr true k ↔ st = c.stSlarAck) ∧
    (∀ k, st ∈ expectedStatus c .tData false k ↔ st = c.stTxdataAck) ∧
    (∀ k, k < 5 → (st ∈ expectedStatus c .tData true k ↔ st = c.stRxdataAck)) ∧
    (st ∈ expectedStatus c .tData true 5 ↔ st = c.stRxdataNack)

/-- R95, R201, R203, R204: an answer with an unexpected status takes the abort path: the record, STOP, back to IDLE
with `OK = 0` and `done`; nothing else changes, so `RAW`, the report, the bounds, `INITED` and `RESTART_REQ` stay. The
model's own in it: the latch (log entry 6); the trace (log entry 7); the timer's value after an answer (log entry 9).
The model's own in it: the latch (log entry 6); the trace (log entry 7); the timer's value after an answer (log entry
9). -/
def Obligations.MismatchAborts : Prop :=
  ∀ (s : State) (st rd : Byte), s.seqLegal = true → s.tx ≠ .tOff →
    st ∉ expectedStatus s.cfg s.tx s.ph.dir s.idx.toNat →
    exec (.wait st rd) s = .next { s with
      ph := .idle, tx := .tOff, idx := 0#3, ok := false, busOwn := false, done := true, errClass := .busPhaseError,
      errPh := s.ph, errTx := s.tx, errIdx := s.idx, drvValid := true, drvCmd := 0x600#11,
      trace := s.trace ++ [0x600#11], latch := { s.latch with result := false } }

/-- R114: a verified start wait issues the address byte of the phase's direction. The model's own in it: the trace
(log entry 7). -/
def Obligations.StartWaitPasses : Prop :=
  ∀ (s : State) (st rd : Byte), s.seqLegal = true → s.tx = .tStart → (st = s.cfg.stStart ∨ st = s.cfg.stRstart) →
    ∃ w : DrvWord, w.toNat = 0x200 + 2 * s.cfg.devAddr.toNat + (if s.ph = .fetch then 1 else 0) ∧
      exec (.wait st rd) s = .next { s with
        tx := .tAddr, tmr := s.cfg.timeout, drvValid := true, drvCmd := w, trace := s.trace ++ [w] }

/-- R115, R64: a verified address wait issues the first data byte, or READ with acknowledge in FETCH. The model's own
in it: the trace (log entry 7). The model's own in it: the trace (log entry 7). -/
def Obligations.AddressWaitPasses : Prop :=
  ∀ (s : State) (st rd : Byte), s.seqLegal = true → s.tx = .tAddr →
    st = (if s.ph = .fetch then s.cfg.stSlarAck else s.cfg.stSlawAck) →
    ∃ w : DrvWord, w = (if s.ph = .init then 0x240#11 else if s.ph = .request then 0x200#11 else 0x500#11) ∧
      exec (.wait st rd) s = .next { s with
        tx := .tData, idx := 0#3, tmr := s.cfg.timeout, drvValid := true, drvCmd := w, trace := s.trace ++ [w] }

/-- R116, R171, R172: a verified data wait of a SEND: INIT goes on with its second byte `0x00`; the last byte issues
STOP and completes with true, INIT into IDLE with `OK` and `INITED`, REQUEST into SETTLE with the timer loaded. The
model's own in it: the latch (log entry 6); the trace (log entry 7); the timer's value after an answer (log entry 9).
The model's own in it: the latch (log entry 6); the trace (log entry 7); the timer's value after an answer (log entry
9). -/
def Obligations.SendDataWaitPasses : Prop :=
  ∀ (s : State) (rd : Byte), s.seqLegal = true → s.tx = .tData →
    (s.ph = .init → s.idx = 0#3 →
      exec (.wait s.cfg.stTxdataAck rd) s = .next { s with
        idx := 1#3, tmr := s.cfg.timeout, drvValid := true, drvCmd := 0x200#11, trace := s.trace ++ [0x200#11] }) ∧
    (s.ph = .init → s.idx = 1#3 →
      exec (.wait s.cfg.stTxdataAck rd) s = .next { s with
        ph := .idle, tx := .tOff, idx := 0#3, ok := true, inited := true, done := true, busOwn := false, drvValid := true,
        drvCmd := 0x600#11, trace := s.trace ++ [0x600#11], latch := { s.latch with result := true } }) ∧
    (s.ph = .request →
      exec (.wait s.cfg.stTxdataAck rd) s = .next { s with
        ph := .settle, tx := .tOff, idx := 0#3, tmr := s.cfg.settle, busOwn := false, drvValid := true,
        drvCmd := 0x600#11, trace := s.trace ++ [0x600#11], latch := { s.latch with result := true } })

/-- R117, R113, R112: a verified data wait of a RECEIVE stores the byte at `IDX`; before the last byte the next READ
is issued, with acknowledge but for the sixth; after the last the fetch is complete, with STOP if `RECV_STOP = 1`. The
model's own in it: the latch (log entry 6); the trace (log entry 7); the timer's value after an answer (log entry 9);
`drv_cmd` between two words (log entry 8). The model's own in it: the latch (log entry 6); the trace (log entry 7);
the timer's value after an answer (log entry 9); `drv_cmd` between two words (log entry 8). -/
def Obligations.ReceiveDataWaitPasses : Prop :=
  ∀ (s : State) (rd : Byte), s.seqLegal = true → s.tx = .tData → s.ph = .fetch →
    (s.idx.toNat < 5 →
      ∃ t, exec (.wait s.cfg.stRxdataAck rd) s = .next t ∧
        (∀ j : Fin 6, t.raw[j] = if j.val = s.idx.toNat then rd else s.raw[j]) ∧ t.idx.toNat = s.idx.toNat + 1 ∧
        t.drvCmd = (if s.idx.toNat = 4 then 0x400#11 else 0x500#11) ∧
        t = { s with
          raw := t.raw, idx := t.idx, tmr := s.cfg.timeout, drvValid := true, drvCmd := t.drvCmd,
          trace := s.trace ++ [t.drvCmd] }) ∧
    (s.idx.toNat = 5 →
      ∃ t, exec (.wait s.cfg.stRxdataNack rd) s = .next t ∧
        (∀ j : Fin 6, t.raw[j] = if j.val = 5 then rd else s.raw[j]) ∧
        t = { s with
          raw := t.raw, ph := .decode, tx := .tOff, idx := 0#3, latch := { s.latch with result := true },
          busOwn := if s.cfg.recvStop then false else s.busOwn,
          drvValid := if s.cfg.recvStop then true else s.drvValid,
          drvCmd := if s.cfg.recvStop then 0x600#11 else s.drvCmd,
          trace := if s.cfg.recvStop then s.trace ++ [0x600#11] else s.trace })

/-- R111, R64: a SEND whose `2 + n` waits are answered at once with the expected codes issues START, the address byte,
the data bytes and STOP, returns true and changes nothing but the bus and timer registers; the bytes are those of the
phase. The model's own in it: the whole transaction as one operation over the coming ticks (log entry 17); the latch
(log entry 6); the trace (log entry 7); the timer's value after an answer (log entry 9); the bytes sent outside INIT
and REQUEST, none (log entry 16). -/
def Obligations.SendSucceeds : Prop :=
  ∀ (s : State) (a : BitVec 7) (x y : Inputs) (zs rest : List Inputs),
    1 ≤ s.cfg.timeout → s.inputs = x :: y :: (zs ++ rest) → zs.length = s.ph.sendBytes.length →
    (∀ z ∈ x :: y :: zs, z.rst = false ∧ z.drvDone = true) → (x.drvStatus = s.cfg.stStart ∨ x.drvStatus = s.cfg.stRstart) →
    y.drvStatus = s.cfg.stSlawAck → (∀ z ∈ zs, z.drvStatus = s.cfg.stTxdataAck) →
    ∃ t, exec (.send a) s = .next t ∧
      t.trace = s.trace ++ [0x000#11, 0x200#11 ||| (a ++ 0#1 : Byte).setWidth 11] ++
        s.ph.sendBytes.map (fun b => 0x200#11 ||| b.setWidth 11) ++ [0x600#11] ∧
      t.inputs = rest ∧
      t = { s with
        tx := .tOff, idx := 0#3, tmr := s.cfg.timeout, busOwn := false, done := false, drvValid := true,
        drvCmd := 0x600#11, trace := t.trace, inputs := rest, inp := t.inp, latch := { s.latch with result := true } }

/-- R112, R113: a RECEIVE whose eight waits are answered at once with the expected codes stores the six bytes in
arrival order, acknowledges all but the last, ends with STOP if `RECV_STOP = 1`, and returns true. The model's own in
it: the whole transaction as one operation over the coming ticks (log entry 17); the latch (log entry 6); the trace
(log entry 7); the timer's value after an answer (log entry 9); `drv_cmd` between two words (log entry 8). The model's
own in it: the whole transaction as one operation over the coming ticks (log entry 17); the latch (log entry 6); the
trace (log entry 7); the timer's value after an answer (log entry 9); `drv_cmd` between two words (log entry 8). -/
def Obligations.ReceiveSucceeds : Prop :=
  ∀ (s : State) (a : BitVec 7) (x y : Inputs) (zs : Vector Inputs 6) (rest : List Inputs),
    1 ≤ s.cfg.timeout → s.inputs = x :: y :: (zs.toList ++ rest) →
    (∀ z ∈ x :: y :: zs.toList, z.rst = false ∧ z.drvDone = true) →
    (x.drvStatus = s.cfg.stStart ∨ x.drvStatus = s.cfg.stRstart) → y.drvStatus = s.cfg.stSlarAck →
    (∀ j : Fin 6, zs[j].drvStatus = if j.val < 5 then s.cfg.stRxdataAck else s.cfg.stRxdataNack) →
    ∃ t, exec (.receive a) s = .next t ∧ (∀ j : Fin 6, t.raw[j] = zs[j].drvRdata) ∧
      t.trace = s.trace ++ [0x000#11, 0x200#11 ||| (a ++ 1#1 : Byte).setWidth 11, 0x500#11, 0x500#11, 0x500#11, 0x500#11,
        0x500#11, 0x400#11] ++ (if s.cfg.recvStop then [0x600#11] else []) ∧
      t = { s with
        tx := .tOff, idx := 0#3, tmr := s.cfg.timeout, raw := t.raw, busOwn := !s.cfg.recvStop, done := false,
        drvValid := s.cfg.recvStop, drvCmd := if s.cfg.recvStop then 0x600#11 else 0x400#11, trace := t.trace,
        inputs := rest, inp := t.inp, latch := { s.latch with result := true } }

/-- R110, R111, R112, R113, R118, R204: a transaction that returns false has issued START first and STOP last and left
the bus free; its error is recorded; SEND leaves `RAW`, and both leave the report, the bounds and the flags of the
commands. The model's own in it: the whole transaction as one operation over the coming ticks (log entry 17); the
latch (log entry 6); the trace (log entry 7). -/
def Obligations.FailedTransactionReleasesBus : Prop :=
  ∀ (s t : State) (a : BitVec 7),
    (sendAll a s.ph.sendBytes s = (.returned false, t) ∨ receiveAll a s = (.returned false, t)) →
    (∃ mid, t.trace = s.trace ++ [0x000#11] ++ mid ++ [0x600#11]) ∧ t.busOwn = false ∧ t.drvCmd = 0x600#11 ∧
      t.drvValid = true ∧ t.latch.result = false ∧
      (t.errClass = .busPhaseError ∨ t.errClass = .busTimeoutError) ∧ t.errPh = s.ph ∧ t.errTx ≠ .tOff ∧
      t.tx = .tOff ∧ t.idx = 0#3 ∧ t.ph = s.ph ∧ t.report = s.report ∧ t.calMax = s.calMax ∧ t.calMin = s.calMin ∧
      t.ok = s.ok ∧ t.restartReq = s.restartReq ∧ t.inited = s.inited ∧
      (sendAll a s.ph.sendBytes s = (.returned false, t) → t.raw = s.raw)

/-- R114, R64: where no transaction runs, a transaction phase begins its own: START with `TX = T_START`. The model's
own in it: that a phase operation can run by itself (log entry 18); the trace (log entry 7). The model's own in it:
that a phase operation can run by itself (log entry 18); the trace (log entry 7). -/
def Obligations.TransactionPhasesBegin : Prop :=
  ∀ (s : State) (p : Phase) (i : Instr),
    ((p = .init ∧ i = .phInit) ∨ (p = .request ∧ i = .phRequest) ∨ (p = .fetch ∧ i = .phFetch)) → s.tx = .tOff →
    exec i s = .next { s with
      ph := p, tx := .tStart, idx := 0#3, tmr := s.cfg.timeout, busOwn := true, drvValid := true, drvCmd := 0x000#11,
      trace := s.trace ++ [0x000#11] }

/-- R94, R95, R202, R203, R204, R208 (b), R250: a tick of a transaction phase: an answer on the port is the `WAIT`
operation, in the last tick too; without one the timer counts down; and when it reaches 0 the wait times out into the
abort path. The model's own in it: the latch (log entry 6); the trace (log entry 7); the timer 0 after a timeout (log
entry 9). -/
def Obligations.TransactionPhaseTick : Prop :=
  ∀ (s : State) (i : Instr), s.seqLegal = true → s.tx ≠ .tOff → decode (.phase s.ph.code) = .ok i →
    (s.inp.drvDone = true → exec i s = exec (.wait s.inp.drvStatus s.inp.drvRdata) s) ∧
    (s.inp.drvDone = false → 2 ≤ s.tmr → exec i s = .next { s with tmr := s.tmr - 1 }) ∧
    (s.inp.drvDone = false → s.tmr = 1 → exec i s = .next { s with
      ph := .idle, tx := .tOff, idx := 0#3, tmr := 0, ok := false, busOwn := false, done := true,
      errClass := .busTimeoutError, errPh := s.ph, errTx := s.tx, errIdx := s.idx, drvValid := true, drvCmd := 0x600#11,
      trace := s.trace ++ [0x600#11], latch := { s.latch with result := false } })

/-- R175, R250: SETTLE counts its timer down and begins the fetch in the tick in which it reaches 0, at once when it
is 0. The model's own in it: that a phase operation can run by itself (log entry 18); the trace (log entry 7). -/
def Obligations.SettleCountsThenFetches : Prop :=
  ∀ s : State,
    (2 ≤ s.tmr → exec .phSettle s = .next { s with tmr := s.tmr - 1 }) ∧
    (s.tmr ≤ 1 → exec .phSettle s = .next { s with
      ph := .fetch, tx := .tStart, idx := 0#3, tmr := s.cfg.timeout, busOwn := true, drvValid := true, drvCmd := 0x000#11,
      trace := s.trace ++ [0x000#11] })

/-- R131, R132, R176: DECODE replaces every byte of `RAW` by `(x ^ 0x17) + 0x17` modulo 256 and goes to SIGCHK. The
model's own in it: that a phase operation can run by itself (log entry 18), so in every state whatever PH holds. -/
def Obligations.DecodePhaseDecodesAll : Prop :=
  ∀ s : State, ∃ t, exec .phDecode s = .next t ∧
    (∀ j : Fin 6, t.raw[j].toNat = ((s.raw[j] ^^^ 0x17#8).toNat + 0x17) % 256) ∧
    t = { s with raw := t.raw, ph := .sigchk }

/-- R177, R203, R206: six bytes `0xFF` raise the device failure, with nothing committed; any other sample goes to
COMMIT. The model's own in it: that a phase operation can run by itself (log entry 18). -/
def Obligations.SigchkDecides : Prop :=
  ∀ s : State,
    ((∀ j : Fin 6, s.raw[j] = 0xFF#8) → exec .phSigchk s = .next { s with
      restartReq := true, ok := false, ph := .idle, done := true, errClass := .deviceFailureSignature, errPh := s.ph,
      errTx := s.tx, errIdx := s.idx }) ∧
    ((∃ j : Fin 6, s.raw[j] ≠ 0xFF#8) → exec .phSigchk s = .next { s with ph := .commit })

/-- R178, R145, R150, R162: COMMIT, when neither divisor can be zero: each axis byte is CAL of its deviation on the
bounds, which widen to it; the triggers of a build that has them; the buttons; `OK`, IDLE, `done`; nothing else. The
model's own in it: that a phase operation can run by itself (log entry 18). The model's own in it: that a phase
operation can run by itself (log entry 18). -/
def Obligations.CommitWritesReport : Prop :=
  ∀ s : State, (∀ a : Fin 4, s.calMin[a].toInt < 0) → ∃ t, exec .phCommit s = .next t ∧
    (∀ a : Fin 4,
      t.calMax[a].toInt = max s.calMax[a].toInt (axisDeviation s.cfg s.raw a).toInt ∧
      t.calMin[a].toInt = min s.calMin[a].toInt (axisDeviation s.cfg s.raw a).toInt ∧
      t.report.ax[a] = calByte s.calMax[a] s.calMin[a] (axisDeviation s.cfg s.raw a)) ∧
    (s.cfg.hasTriggers = true → t.report.trg = #v[fieldT0 s.raw, fieldT1 s.raw]) ∧
    (∀ i : Fin 15, (t.report.btn[1] ++ t.report.btn[0]).getLsbD i.val = !sourceBit s.raw s.cfg.btnSrc[i]) ∧
    t.report.btn[1].getLsbD 7 = false ∧
    t = { s with
      report := { t.report with trg := if s.cfg.hasTriggers then t.report.trg else s.report.trg },
      calMax := t.calMax, calMin := t.calMin, ok := true, ph := .idle, done := true }

/-- R178: for each axis, what COMMIT writes is what the operations FIELD, CENTER and CAL give when they run one after
the other, and the buttons are what PACK writes. The model's own in it: the latch (log entry 6). -/
def Obligations.CommitIsTheDatapath : Prop :=
  ∀ (s u : State) (a : BitVec 2), exec .phCommit s = .next u →
    ∃ t1 t2 t3 t4, exec (.field (a.setWidth 3)) s = .next t1 ∧ exec (.center a) t1 = .next t2 ∧ exec (.cal a) t2 = .next t3 ∧
      exec .pack t3 = .next t4 ∧ u.report.ax[a.toFin] = t3.latch.out ∧ u.calMax[a.toFin] = t3.calMax[a.toFin] ∧
      u.calMin[a.toFin] = t3.calMin[a.toFin] ∧ u.report.btn = t4.report.btn

/-- R131, R132: `DEC i` decodes byte `i` in place and changes nothing else. -/
def Obligations.DecDecodesOneByte : Prop :=
  ∀ (s : State) (i : BitVec 3), i.toNat < 6 → ∃ t, exec (.dec i) s = .next t ∧
    (∀ j : Fin 6, t.raw[j].toNat =
      if j.val = i.toNat then ((s.raw[j] ^^^ 0x17#8).toNat + 0x17) % 256 else s.raw[j].toNat) ∧
    t = { s with raw := t.raw }

/-- R134: DEC reverses ENC and ENC reverses DEC; DEC is no involution; its fixed points are the sixteen bytes with `x[2:0] = 111` and
`x[4] = 1`; and it takes six `0xFF` to six `0xFF` and nothing else there. -/
def Obligations.DecoderLaws : Prop :=
  (∀ y : Byte, decByte (encByte y) = y) ∧ (∀ x : Byte, encByte (decByte x) = x) ∧
    (decByte 0x00#8 = 0x2E#8 ∧ decByte (decByte 0x00#8) = 0x50#8) ∧
    (∀ x : Byte, decByte x = x ↔ x ∈ [0x17#8, 0x1F#8, 0x37#8, 0x3F#8, 0x57#8, 0x5F#8, 0x77#8, 0x7F#8, 0x97#8, 0x9F#8,
      0xB7#8, 0xBF#8, 0xD7#8, 0xDF#8, 0xF7#8, 0xFF#8]) ∧
    (∀ x : Byte, decByte x = x ↔ x.extractLsb' 0 3 = 0b111#3 ∧ x.getLsbD 4 = true) ∧
    ∀ r : Vector Byte 6, (∀ j : Fin 6, r[j] = 0xFF#8) ↔ ∀ j : Fin 6, (decodeSix r)[j] = 0xFF#8

/-- R67, R141: the six fields, by the numbers: `F0`, `F1` the low six bits times 4; `F2` from the high fragments of
bytes 0 to 2, `F3`, `T0`, `T1` five bits times 8. Only the latched field value changes. The model's own in it: the
latch (log entry 6). -/
def Obligations.FieldAssembles : Prop :=
  ∀ (s : State) (f : BitVec 3), (f.toNat < 4 ∨ (f.toNat < 6 ∧ s.cfg.hasTriggers = true)) →
    ∃ t, exec (.field f) s = .next t ∧ t = { s with latch := { s.latch with field := t.latch.field } } ∧
      (f = 0#3 → t.latch.field.toNat = 4 * (s.raw[0].toNat % 64)) ∧
      (f = 1#3 → t.latch.field.toNat = 4 * (s.raw[1].toNat % 64)) ∧
      (f = 2#3 → t.latch.field.toNat =
        8 * (8 * (s.raw[0].toNat / 64) + 2 * (s.raw[1].toNat / 64) + s.raw[2].toNat / 128)) ∧
      (f = 3#3 → t.latch.field.toNat = 8 * (s.raw[2].toNat % 32)) ∧
      (f = 4#3 → t.latch.field.toNat = 8 * (8 * (s.raw[2].toNat / 32 % 4) + s.raw[3].toNat / 32)) ∧
      (f = 5#3 → t.latch.field.toNat = 8 * (s.raw[3].toNat % 32))

/-- R143: `CENTER a` gives `F - 128`, or `127 - F` on an inverted axis, exactly. The model's own in it: the latch (log
entry 6). -/
def Obligations.CenterSubtracts : Prop :=
  ∀ (s : State) (a : BitVec 2), ∃ t, exec (.center a) s = .next t ∧
    t = { s with latch := { s.latch with centred := t.latch.centred } } ∧
    t.latch.centred.toInt =
      if s.cfg.axisInvert.getLsbD a.toNat then 127 - (s.latch.field.toNat : Int) else (s.latch.field.toNat : Int) - 128

/-- R145, R146: `CAL a`, when its divisor cannot be zero: the bounds of the axis widen to `v`, and the byte is the
rescaled `v` by the integer formula of R146, on the updated bounds; the other axes and everything else are unchanged.
The model's own in it: the latch (log entry 6). -/
def Obligations.CalRescales : Prop :=
  ∀ (s : State) (a : BitVec 2), s.calMin[a.toFin].toInt < 0 → ∃ t, exec (.cal a) s = .next t ∧
    t.calMax[a.toFin].toInt = max s.calMax[a.toFin].toInt s.latch.centred.toInt ∧
    t.calMin[a.toFin].toInt = min s.calMin[a.toFin].toInt s.latch.centred.toInt ∧
    (t.latch.out.toNat : Int) =
      (if 0 < s.latch.centred.toInt then
        128 + (2 * s.latch.centred.toInt * 127 + t.calMax[a.toFin].toInt) / (2 * t.calMax[a.toFin].toInt)
      else
        128 - (2 * (-s.latch.centred.toInt) * 128 + (-t.calMin[a.toFin].toInt)) / (2 * (-t.calMin[a.toFin].toInt))) ∧
    (∀ b : Fin 4, b.val ≠ a.toNat → t.calMax[b] = s.calMax[b] ∧ t.calMin[b] = s.calMin[b]) ∧
    t = { s with calMax := t.calMax, calMin := t.calMin, latch := { s.latch with out := t.latch.out } }

/-- R147, R148: the range of CAL's byte: 129 to 255 above 0, 128 exactly at 0, 0 to 127 below; 255 at the updated upper bound and 0 at the
updated lower one. -/
def Obligations.CalRange : Prop :=
  ∀ mx mn v : Byte, mn.toInt < 0 → 0 < mx.toInt →
    (0 < v.toInt → 129 ≤ (calByte mx mn v).toNat) ∧ (v.toInt = 0 → (calByte mx mn v).toNat = 128) ∧
    (v.toInt < 0 → (calByte mx mn v).toNat ≤ 127) ∧
    (mx.toInt ≤ v.toInt → (calByte mx mn v).toNat = 255) ∧ (v.toInt ≤ mn.toInt → (calByte mx mn v).toNat = 0)

/-- R152: for fixed bounds the byte is strictly increasing in `v`, within each branch and across them. -/
def Obligations.CalMonotone : Prop :=
  ∀ mx mn v w : Byte, mn.toInt < 0 → 0 < mx.toInt → mn.toInt ≤ v.toInt → v.toInt < w.toInt → w.toInt ≤ mx.toInt →
    (calByte mx mn v).toNat < (calByte mx mn w).toNat

/-- R34, R146: `round_haz(p, q)` is the nearest integer to `p / q`, and at a tie the one away from zero. -/
def Obligations.RoundHazIsNearest : Prop :=
  ∀ p q : Int, 0 < q →
    2 * (roundHaz p q * q - p).natAbs ≤ q.natAbs ∧
    (2 * (roundHaz p q * q - p).natAbs = q.natAbs → p.natAbs < (roundHaz p q * q).natAbs)

/-- R150: `TRIG t` in a build with triggers writes the trigger's five bits times 8 to `TRG[t]`, and nothing else. -/
def Obligations.TrigWritesTrigger : Prop :=
  ∀ (s : State) (t : BitVec 1), s.cfg.hasTriggers = true → ∃ u, exec (.trig t) s = .next u ∧
    (u.report.trg[t.toFin]).toNat =
      (if t = 0#1 then 8 * (8 * (s.raw[2].toNat / 32 % 4) + s.raw[3].toNat / 32) else 8 * (s.raw[3].toNat % 32)) ∧
    (∀ k : Fin 2, k.val ≠ t.toNat → u.report.trg[k] = s.report.trg[k]) ∧
    u = { s with report := { s.report with trg := u.report.trg } }

/-- R160, R43: `SETBTN i, v` sets bit `i` of `{BTN[1], BTN[0]}` to `v`; every other bit and everything else is unchanged. -/
def Obligations.SetbtnWritesOneBit : Prop :=
  ∀ (s : State) (i : BitVec 4) (v : Bool), ∃ t, exec (.setbtn i v) s = .next t ∧
    (∀ k : Fin 16, (t.report.btn[1] ++ t.report.btn[0]).getLsbD k.val =
      if k.val = i.toNat then v else (s.report.btn[1] ++ s.report.btn[0]).getLsbD k.val) ∧
    t = { s with report := { s.report with btn := t.report.btn } }

/-- R161, R162, R163: after `PACK`, bit `i` of the button field is the inverse of the source bit of button `i`, for the fifteen buttons of
every table; bit 15 is 0; nothing else changes. -/
def Obligations.PackInvertsSources : Prop :=
  ∀ s : State, ∃ t, exec .pack s = .next t ∧
    (∀ i : Fin 15, (t.report.btn[1] ++ t.report.btn[0]).getLsbD i.val = !sourceBit s.raw s.cfg.btnSrc[i]) ∧
    t.report.btn[1].getLsbD 7 = false ∧ t = { s with report := { s.report with btn := t.report.btn } }

/-- R150, R67, R70 and log entries 13, 14: the operations that a build without triggers does not have, and the numbers
that do not occur, are refused by name. The model's own in it: the refusals (log entries 13 and 14). -/
def Obligations.AbsentOperationsRefused : Prop :=
  (∀ (s : State) (t : BitVec 1), s.cfg.hasTriggers = false → exec (.trig t) s = .refused .noTriggers) ∧
    (∀ (s : State) (f : BitVec 3), s.cfg.hasTriggers = false → f = 4#3 ∨ f = 5#3 →
      exec (.field f) s = .refused .noTriggers) ∧
    ∀ (s : State) (i : BitVec 3), 6 ≤ i.toNat →
      exec (.dec i) s = .refused .indexDoesNotOccur ∧ exec (.field i) s = .refused .indexDoesNotOccur

/-- R40: the read map: the report first, `R` bytes from address 0, the rest of the eight 0x00; then `RAW`, two zero bytes, the bounds, and the
constants. -/
def Obligations.ReadMapLayout : Prop :=
  ∀ (s : State) (addr : BitVec 5),
    (addr.toNat < 8 → s.memRead addr = s.reportBytes.getD addr.toNat 0x00#8) ∧
    (∀ j : Fin 6, addr.toNat = 0x08 + j.val → s.memRead addr = s.raw[j]) ∧
    (addr.toNat = 0x0E ∨ addr.toNat = 0x0F → s.memRead addr = 0x00#8) ∧
    (∀ a : Fin 4, addr.toNat = 0x10 + a.val → s.memRead addr = s.calMax[a]) ∧
    (∀ a : Fin 4, addr.toNat = 0x14 + a.val → s.memRead addr = s.calMin[a]) ∧
    (addr.toNat = 0x1C → (s.memRead addr).toNat = if s.cfg.hasTriggers then 8 else 6) ∧
    (addr.toNat = 0x1D → (s.memRead addr).toNat = s.cfg.devAddr.toNat) ∧
    (addr.toNat = 0x1E → s.memRead addr = s.cfg.brdiv) ∧
    (addr.toNat = 0x1F → (s.memRead addr).toNat = s.cfg.presc.toNat)

/-- R26: the four status bytes, bit by bit. -/
def Obligations.StatusBytesLayout : Prop :=
  ∀ s : State,
    ((s.memRead 0x18#5).getLsbD 0 = s.busy ∧ (s.memRead 0x18#5).getLsbD 1 = s.ok ∧
      (s.memRead 0x18#5).getLsbD 2 = s.restartReq ∧ (s.memRead 0x18#5).getLsbD 3 = s.inited ∧
      (s.memRead 0x18#5).getLsbD 4 = s.busOwn ∧ (s.memRead 0x18#5).extractLsb' 5 3 = 0#3) ∧
    ((s.memRead 0x19#5).extractLsb' 0 2 = s.errClass.code ∧ (s.memRead 0x19#5).extractLsb' 2 4 = s.errPh.code ∧
      (s.memRead 0x19#5).extractLsb' 6 2 = s.errTx.code) ∧
    ((s.memRead 0x1A#5).extractLsb' 0 4 = s.ph.code ∧ (s.memRead 0x1A#5).extractLsb' 4 2 = s.tx.code ∧
      (s.memRead 0x1A#5).extractLsb' 6 2 = 0#2) ∧
    (s.memRead 0x1B#5).extractLsb' 0 3 = s.idx ∧ (s.memRead 0x1B#5).getLsbD 3 = false ∧
      (s.memRead 0x1B#5).extractLsb' 4 3 = s.errIdx ∧ (s.memRead 0x1B#5).getLsbD 7 = false

/-- R40, R41 and log entry 23: the list of cells of the read map holds, at every address, the byte a read gives. The
model's own in it: the list of cells (log entry 23). The model's own in it: the list of cells (log entry 23). -/
def Obligations.ReadMapCellsAgree : Prop :=
  ∀ (s : State) (addr : BitVec 5), Memory.read s.readMap addr.toNat = s.memRead addr

/-- R40, R41 and the storing rules R131, R141, R143, R145, R150, R160, R162, R90 to R93: which bytes of the read map an operation of one shape
leaves as they were: all of them for FIELD, CENTER, WRITE and READ; all but `STATUS` for START and STOP; all but the stored byte or bytes
for DEC, CAL, TRIG, SETBTN and PACK. -/
def Obligations.ReadMapFrames : Prop :=
  ∀ (s t : State) (addr : BitVec 5),
    (∀ f, exec (.field f) s = .next t → t.memRead addr = s.memRead addr) ∧
    (∀ a, exec (.center a) s = .next t → t.memRead addr = s.memRead addr) ∧
    (∀ b, exec (.write b) s = .next t → t.memRead addr = s.memRead addr) ∧
    (∀ b, exec (.read b) s = .next t → t.memRead addr = s.memRead addr) ∧
    (exec .start s = .next t → addr ≠ 0x18#5 → t.memRead addr = s.memRead addr) ∧
    (exec .stop s = .next t → addr ≠ 0x18#5 → t.memRead addr = s.memRead addr) ∧
    (∀ i, exec (.dec i) s = .next t → addr.toNat ≠ 0x08 + i.toNat → t.memRead addr = s.memRead addr) ∧
    (∀ a, exec (.cal a) s = .next t → addr.toNat ≠ 0x10 + a.toNat → addr.toNat ≠ 0x14 + a.toNat →
      t.memRead addr = s.memRead addr) ∧
    (∀ k, exec (.trig k) s = .next t → addr.toNat ≠ 0x04 + k.toNat → t.memRead addr = s.memRead addr) ∧
    (∀ i v, exec (.setbtn i v) s = .next t → addr.toNat ≠ s.cfg.reportSize - 2 + i.toNat / 8 →
      t.memRead addr = s.memRead addr) ∧
    (exec .pack s = .next t → addr.toNat ≠ s.cfg.reportSize - 2 → addr.toNat ≠ s.cfg.reportSize - 1 →
      t.memRead addr = s.memRead addr)

/-- R120: the divider is the least prescaler index whose divisor fits in 0..255, with that divisor; there is none exactly when the clock ratio
is below 16 (or the bus clock 0) or no index fits. -/
def Obligations.DividerIsLeastFit : Prop :=
  ∀ (c : Config) (d : Byte) (p : BitVec 2),
    c.divider = some (d, p) ↔
      1 ≤ c.fBus ∧ 16 ≤ c.fClk / c.fBus ∧ (c.fClk / c.fBus - 16) / (2 * 4 ^ p.toNat) = d.toNat ∧
        ∀ k, k < p.toNat → 255 < (c.fClk / c.fBus - 16) / (2 * 4 ^ k)
end

