-- ==== Sys2Proof/Laws/Datapath.lean ====
section
/-! SUPPORT. Small laws of the datapath functions: signed maximum and minimum as integers, one bit of a button byte, and the six
decoded bytes one by one. -/

namespace Sys2Proof.Machine

/-- `smax` is the maximum of the signed readings (R34). -/
@[simp] theorem smax_toInt (x y : Byte) : (smax x y).toInt = max x.toInt y.toInt := by
  unfold smax
  split <;> omega

/-- `smin` is the minimum of the signed readings (R34). -/
@[simp] theorem smin_toInt (x y : Byte) : (smin x y).toInt = min x.toInt y.toInt := by
  unfold smin
  split <;> omega

/-- What the bits of a byte are after one of them is set or cleared (R160). -/
theorem setBit_getLsbD (b : Byte) (k : Nat) (hk : k < 8) (v : Bool) (j : Nat) (hj : j < 8) :
    (setBit b k v).getLsbD j = if j = k then v else b.getLsbD j := by
  have shifted : (1#8 <<< k).getLsbD j = decide (j = k) := by
    revert j hj
    revert k hk
    decide
  cases v
  · rw [setBit, if_neg Bool.false_ne_true, BitVec.getLsbD_and, BitVec.getLsbD_not, shifted]
    by_cases h : j = k <;> simp [h, hj]
  · rw [setBit, if_pos rfl, BitVec.getLsbD_or, shifted]
    by_cases h : j = k <;> simp [h]

/-- `SETBTN` on the sixteen bits of the button field (R160). -/
theorem setButton_getLsbD (btn : Vector Byte 2) (i : BitVec 4) (v : Bool) (j : Nat) (hj : j < 16) :
    ((setButton btn i v)[1] ++ (setButton btn i v)[0]).getLsbD j =
      if j = i.toNat then v else (btn[1] ++ btn[0]).getLsbD j := by
  have hi := i.isLt
  unfold setButton
  split
  · simp only [Vector.getElem_mk, List.getElem_toArray, List.getElem_cons_succ, List.getElem_cons_zero, BitVec.getLsbD_append]
    split
    · exact setBit_getLsbD _ _ (by omega) _ _ (by omega)
    · rw [if_neg (by omega)]
  · simp only [Vector.getElem_mk, List.getElem_toArray, List.getElem_cons_succ, List.getElem_cons_zero, BitVec.getLsbD_append]
    split
    · rw [if_neg (by omega)]
    · rw [setBit_getLsbD _ _ (by omega) _ _ (by omega)]
      congr 1
      exact propext ⟨fun h => by omega, fun h => by omega⟩

/-- The six decoded bytes are the bytes decoded (R132). -/
@[simp] theorem decodeSix_getElem (r : Vector Byte 6) (j : Nat) (hj : j < 6) : (decodeSix r)[j] = decByte r[j] := by
  have e : j = 0 ∨ j = 1 ∨ j = 2 ∨ j = 3 ∨ j = 4 ∨ j = 5 := by omega
  rcases e with rfl | rfl | rfl | rfl | rfl | rfl <;> rfl

/-- The signature says that every byte is `0xFF` (R177). -/
theorem isSignature_iff (r : Vector Byte 6) : isSignature r = true ↔ ∀ j : Fin 6, r[j] = 0xFF#8 := by
  simp [isSignature, Fin.forall_fin_succ, and_assoc]

end Sys2Proof.Machine
end

