-- ==== Sys2Proof/Laws/PerInstr.lean ====
section
/-! SUPPORT. Per operation: its encoded word is of the format of its row of spec/opcode_table.json and carries the row's fixed bits. -/

namespace Sys2Proof.Laws.TableRow

/-- The word of the operation has the format of its row, and under the row's mask it is the row's match. -/
def Statement (i : Instr) : Prop :=
  (encode i).format = i.row.format ∧ (encode i).value &&& i.row.mask = i.row.pattern

theorem init : Statement .init := by unfold Statement; decide
theorem poll : Statement .poll := by unfold Statement; decide
theorem start : Statement .start := by unfold Statement; decide
theorem write (b : Byte) : Statement (.write b) := by unfold Statement; revert b; decide
theorem read (ack : Bool) : Statement (.read ack) := by unfold Statement; revert ack; decide
theorem stop : Statement .stop := by unfold Statement; decide

theorem wait (status rdata : Byte) : Statement (.wait status rdata) := by
  have top : ((1#1 ++ status) ++ rdata : BitVec (1 + 8 + 8)).getLsbD 16 = true := by
    rw [BitVec.getLsbD_append, BitVec.getLsbD_append]; rfl
  have bits : (1#1 ++ status ++ rdata) &&& 0x10000#17 = 0x10000#17 := by
    apply BitVec.eq_of_getLsbD_eq
    intro k hk
    have : k < 16 ∨ k = 16 := by omega
    rcases this with h | rfl
    · have : (0x10000#17).getLsbD k = false := by
        have hh : ∀ j : Fin 16, (0x10000#17).getLsbD j.val = false := by decide
        exact hh ⟨k, h⟩
      simp [this]
    · rw [BitVec.getLsbD_and]; exact congrArg (· && (0x10000#17).getLsbD 16) top
  refine ⟨rfl, ?_⟩
  have := congrArg BitVec.toNat bits
  simpa [encode, OpWord.value, Instr.row] using this

theorem send (a : BitVec 7) : Statement (.send a) := by unfold Statement; revert a; decide
theorem receive (a : BitVec 7) : Statement (.receive a) := by unfold Statement; revert a; decide
theorem phInit : Statement .phInit := by unfold Statement; decide
theorem phRequest : Statement .phRequest := by unfold Statement; decide
theorem phSettle : Statement .phSettle := by unfold Statement; decide
theorem phFetch : Statement .phFetch := by unfold Statement; decide
theorem phDecode : Statement .phDecode := by unfold Statement; decide
theorem phSigchk : Statement .phSigchk := by unfold Statement; decide
theorem phCommit : Statement .phCommit := by unfold Statement; decide
theorem dec (i : BitVec 3) : Statement (.dec i) := by unfold Statement; revert i; decide
theorem field (f : BitVec 3) : Statement (.field f) := by unfold Statement; revert f; decide
theorem center (a : BitVec 2) : Statement (.center a) := by unfold Statement; revert a; decide
theorem cal (a : BitVec 2) : Statement (.cal a) := by unfold Statement; revert a; decide
theorem trig (t : BitVec 1) : Statement (.trig t) := by unfold Statement; revert t; decide

theorem setbtn (i : BitVec 4) (v : Bool) : Statement (.setbtn i v) := by
  unfold Statement; revert i v; decide

theorem pack : Statement .pack := by unfold Statement; decide

end Sys2Proof.Laws.TableRow
end

