-- ==== Sys2Proof/Laws/State.lean ====
section
/-! SUPPORT. The small lemmas of the state's updates: what each named update of Sys2Proof/Machine/Ops.lean leaves in each field. -/

namespace Sys2Proof.Machine

variable (s : State)

@[simp] theorem State.drvIssue_cfg (w : DrvWord) : (s.drvIssue w).cfg = s.cfg := rfl
@[simp] theorem State.drvIssue_ph (w : DrvWord) : (s.drvIssue w).ph = s.ph := rfl
@[simp] theorem State.drvIssue_tx (w : DrvWord) : (s.drvIssue w).tx = s.tx := rfl
@[simp] theorem State.drvIssue_idx (w : DrvWord) : (s.drvIssue w).idx = s.idx := rfl
@[simp] theorem State.drvIssue_tmr (w : DrvWord) : (s.drvIssue w).tmr = s.tmr := rfl
@[simp] theorem State.drvIssue_raw (w : DrvWord) : (s.drvIssue w).raw = s.raw := rfl
@[simp] theorem State.drvIssue_report (w : DrvWord) : (s.drvIssue w).report = s.report := rfl
@[simp] theorem State.drvIssue_calMax (w : DrvWord) : (s.drvIssue w).calMax = s.calMax := rfl
@[simp] theorem State.drvIssue_calMin (w : DrvWord) : (s.drvIssue w).calMin = s.calMin := rfl
@[simp] theorem State.drvIssue_ok (w : DrvWord) : (s.drvIssue w).ok = s.ok := rfl
@[simp] theorem State.drvIssue_restartReq (w : DrvWord) : (s.drvIssue w).restartReq = s.restartReq := rfl
@[simp] theorem State.drvIssue_inited (w : DrvWord) : (s.drvIssue w).inited = s.inited := rfl
@[simp] theorem State.drvIssue_busOwn (w : DrvWord) : (s.drvIssue w).busOwn = s.busOwn := rfl
@[simp] theorem State.drvIssue_errClass (w : DrvWord) : (s.drvIssue w).errClass = s.errClass := rfl
@[simp] theorem State.drvIssue_errPh (w : DrvWord) : (s.drvIssue w).errPh = s.errPh := rfl
@[simp] theorem State.drvIssue_errTx (w : DrvWord) : (s.drvIssue w).errTx = s.errTx := rfl
@[simp] theorem State.drvIssue_errIdx (w : DrvWord) : (s.drvIssue w).errIdx = s.errIdx := rfl
@[simp] theorem State.drvIssue_done (w : DrvWord) : (s.drvIssue w).done = s.done := rfl
@[simp] theorem State.drvIssue_drvValid (w : DrvWord) : (s.drvIssue w).drvValid = true := rfl
@[simp] theorem State.drvIssue_drvCmd (w : DrvWord) : (s.drvIssue w).drvCmd = w := rfl
@[simp] theorem State.drvIssue_inp (w : DrvWord) : (s.drvIssue w).inp = s.inp := rfl
@[simp] theorem State.drvIssue_inputs (w : DrvWord) : (s.drvIssue w).inputs = s.inputs := rfl
@[simp] theorem State.drvIssue_drawn (w : DrvWord) : (s.drvIssue w).drawn = s.drawn := rfl
@[simp] theorem State.drvIssue_trace (w : DrvWord) : (s.drvIssue w).trace = s.trace ++ [w] := rfl
@[simp] theorem State.drvIssue_latch (w : DrvWord) : (s.drvIssue w).latch = s.latch := rfl
@[simp] theorem State.drvIssue_slot (w : DrvWord) : (s.drvIssue w).slot = s.slot := rfl

@[simp] theorem State.drvIssueTimed_cfg (w : DrvWord) : (s.drvIssueTimed w).cfg = s.cfg := rfl
@[simp] theorem State.drvIssueTimed_ph (w : DrvWord) : (s.drvIssueTimed w).ph = s.ph := rfl
@[simp] theorem State.drvIssueTimed_tx (w : DrvWord) : (s.drvIssueTimed w).tx = s.tx := rfl
@[simp] theorem State.drvIssueTimed_idx (w : DrvWord) : (s.drvIssueTimed w).idx = s.idx := rfl
@[simp] theorem State.drvIssueTimed_tmr (w : DrvWord) : (s.drvIssueTimed w).tmr = s.cfg.timeout := rfl
@[simp] theorem State.drvIssueTimed_raw (w : DrvWord) : (s.drvIssueTimed w).raw = s.raw := rfl
@[simp] theorem State.drvIssueTimed_report (w : DrvWord) : (s.drvIssueTimed w).report = s.report := rfl
@[simp] theorem State.drvIssueTimed_calMax (w : DrvWord) : (s.drvIssueTimed w).calMax = s.calMax := rfl
@[simp] theorem State.drvIssueTimed_calMin (w : DrvWord) : (s.drvIssueTimed w).calMin = s.calMin := rfl
@[simp] theorem State.drvIssueTimed_ok (w : DrvWord) : (s.drvIssueTimed w).ok = s.ok := rfl
@[simp] theorem State.drvIssueTimed_restartReq (w : DrvWord) : (s.drvIssueTimed w).restartReq = s.restartReq := rfl
@[simp] theorem State.drvIssueTimed_inited (w : DrvWord) : (s.drvIssueTimed w).inited = s.inited := rfl
@[simp] theorem State.drvIssueTimed_busOwn (w : DrvWord) : (s.drvIssueTimed w).busOwn = s.busOwn := rfl
@[simp] theorem State.drvIssueTimed_errClass (w : DrvWord) : (s.drvIssueTimed w).errClass = s.errClass := rfl
@[simp] theorem State.drvIssueTimed_errPh (w : DrvWord) : (s.drvIssueTimed w).errPh = s.errPh := rfl
@[simp] theorem State.drvIssueTimed_errTx (w : DrvWord) : (s.drvIssueTimed w).errTx = s.errTx := rfl
@[simp] theorem State.drvIssueTimed_errIdx (w : DrvWord) : (s.drvIssueTimed w).errIdx = s.errIdx := rfl
@[simp] theorem State.drvIssueTimed_done (w : DrvWord) : (s.drvIssueTimed w).done = s.done := rfl
@[simp] theorem State.drvIssueTimed_drvValid (w : DrvWord) : (s.drvIssueTimed w).drvValid = true := rfl
@[simp] theorem State.drvIssueTimed_drvCmd (w : DrvWord) : (s.drvIssueTimed w).drvCmd = w := rfl
@[simp] theorem State.drvIssueTimed_inp (w : DrvWord) : (s.drvIssueTimed w).inp = s.inp := rfl
@[simp] theorem State.drvIssueTimed_inputs (w : DrvWord) : (s.drvIssueTimed w).inputs = s.inputs := rfl
@[simp] theorem State.drvIssueTimed_drawn (w : DrvWord) : (s.drvIssueTimed w).drawn = s.drawn := rfl
@[simp] theorem State.drvIssueTimed_trace (w : DrvWord) : (s.drvIssueTimed w).trace = s.trace ++ [w] := rfl
@[simp] theorem State.drvIssueTimed_latch (w : DrvWord) : (s.drvIssueTimed w).latch = s.latch := rfl
@[simp] theorem State.drvIssueTimed_slot (w : DrvWord) : (s.drvIssueTimed w).slot = s.slot := rfl

@[simp] theorem State.issueStart_cfg : (s.issueStart).cfg = s.cfg := rfl
@[simp] theorem State.issueStart_ph : (s.issueStart).ph = s.ph := rfl
@[simp] theorem State.issueStart_tx : (s.issueStart).tx = s.tx := rfl
@[simp] theorem State.issueStart_idx : (s.issueStart).idx = s.idx := rfl
@[simp] theorem State.issueStart_tmr : (s.issueStart).tmr = s.cfg.timeout := rfl
@[simp] theorem State.issueStart_raw : (s.issueStart).raw = s.raw := rfl
@[simp] theorem State.issueStart_report : (s.issueStart).report = s.report := rfl
@[simp] theorem State.issueStart_calMax : (s.issueStart).calMax = s.calMax := rfl
@[simp] theorem State.issueStart_calMin : (s.issueStart).calMin = s.calMin := rfl
@[simp] theorem State.issueStart_ok : (s.issueStart).ok = s.ok := rfl
@[simp] theorem State.issueStart_restartReq : (s.issueStart).restartReq = s.restartReq := rfl
@[simp] theorem State.issueStart_inited : (s.issueStart).inited = s.inited := rfl
@[simp] theorem State.issueStart_busOwn : (s.issueStart).busOwn = true := rfl
@[simp] theorem State.issueStart_errClass : (s.issueStart).errClass = s.errClass := rfl
@[simp] theorem State.issueStart_errPh : (s.issueStart).errPh = s.errPh := rfl
@[simp] theorem State.issueStart_errTx : (s.issueStart).errTx = s.errTx := rfl
@[simp] theorem State.issueStart_errIdx : (s.issueStart).errIdx = s.errIdx := rfl
@[simp] theorem State.issueStart_done : (s.issueStart).done = s.done := rfl
@[simp] theorem State.issueStart_drvValid : (s.issueStart).drvValid = true := rfl
@[simp] theorem State.issueStart_drvCmd : (s.issueStart).drvCmd = drvWord 0b00#2 false 0x00#8 := rfl
@[simp] theorem State.issueStart_inp : (s.issueStart).inp = s.inp := rfl
@[simp] theorem State.issueStart_inputs : (s.issueStart).inputs = s.inputs := rfl
@[simp] theorem State.issueStart_drawn : (s.issueStart).drawn = s.drawn := rfl
@[simp] theorem State.issueStart_trace : (s.issueStart).trace = s.trace ++ [drvWord 0b00#2 false 0x00#8] := rfl
@[simp] theorem State.issueStart_latch : (s.issueStart).latch = s.latch := rfl
@[simp] theorem State.issueStart_slot : (s.issueStart).slot = s.slot := rfl

@[simp] theorem State.issueWrite_cfg (b : Byte) : (s.issueWrite b).cfg = s.cfg := rfl
@[simp] theorem State.issueWrite_ph (b : Byte) : (s.issueWrite b).ph = s.ph := rfl
@[simp] theorem State.issueWrite_tx (b : Byte) : (s.issueWrite b).tx = s.tx := rfl
@[simp] theorem State.issueWrite_idx (b : Byte) : (s.issueWrite b).idx = s.idx := rfl
@[simp] theorem State.issueWrite_tmr (b : Byte) : (s.issueWrite b).tmr = s.cfg.timeout := rfl
@[simp] theorem State.issueWrite_raw (b : Byte) : (s.issueWrite b).raw = s.raw := rfl
@[simp] theorem State.issueWrite_report (b : Byte) : (s.issueWrite b).report = s.report := rfl
@[simp] theorem State.issueWrite_calMax (b : Byte) : (s.issueWrite b).calMax = s.calMax := rfl
@[simp] theorem State.issueWrite_calMin (b : Byte) : (s.issueWrite b).calMin = s.calMin := rfl
@[simp] theorem State.issueWrite_ok (b : Byte) : (s.issueWrite b).ok = s.ok := rfl
@[simp] theorem State.issueWrite_restartReq (b : Byte) : (s.issueWrite b).restartReq = s.restartReq := rfl
@[simp] theorem State.issueWrite_inited (b : Byte) : (s.issueWrite b).inited = s.inited := rfl
@[simp] theorem State.issueWrite_busOwn (b : Byte) : (s.issueWrite b).busOwn = s.busOwn := rfl
@[simp] theorem State.issueWrite_errClass (b : Byte) : (s.issueWrite b).errClass = s.errClass := rfl
@[simp] theorem State.issueWrite_errPh (b : Byte) : (s.issueWrite b).errPh = s.errPh := rfl
@[simp] theorem State.issueWrite_errTx (b : Byte) : (s.issueWrite b).errTx = s.errTx := rfl
@[simp] theorem State.issueWrite_errIdx (b : Byte) : (s.issueWrite b).errIdx = s.errIdx := rfl
@[simp] theorem State.issueWrite_done (b : Byte) : (s.issueWrite b).done = s.done := rfl
@[simp] theorem State.issueWrite_drvValid (b : Byte) : (s.issueWrite b).drvValid = true := rfl
@[simp] theorem State.issueWrite_drvCmd (b : Byte) : (s.issueWrite b).drvCmd = drvWord 0b01#2 false b := rfl
@[simp] theorem State.issueWrite_inp (b : Byte) : (s.issueWrite b).inp = s.inp := rfl
@[simp] theorem State.issueWrite_inputs (b : Byte) : (s.issueWrite b).inputs = s.inputs := rfl
@[simp] theorem State.issueWrite_drawn (b : Byte) : (s.issueWrite b).drawn = s.drawn := rfl
@[simp] theorem State.issueWrite_trace (b : Byte) : (s.issueWrite b).trace = s.trace ++ [drvWord 0b01#2 false b] := rfl
@[simp] theorem State.issueWrite_latch (b : Byte) : (s.issueWrite b).latch = s.latch := rfl
@[simp] theorem State.issueWrite_slot (b : Byte) : (s.issueWrite b).slot = s.slot := rfl

@[simp] theorem State.issueRead_cfg (a : Bool) : (s.issueRead a).cfg = s.cfg := rfl
@[simp] theorem State.issueRead_ph (a : Bool) : (s.issueRead a).ph = s.ph := rfl
@[simp] theorem State.issueRead_tx (a : Bool) : (s.issueRead a).tx = s.tx := rfl
@[simp] theorem State.issueRead_idx (a : Bool) : (s.issueRead a).idx = s.idx := rfl
@[simp] theorem State.issueRead_tmr (a : Bool) : (s.issueRead a).tmr = s.cfg.timeout := rfl
@[simp] theorem State.issueRead_raw (a : Bool) : (s.issueRead a).raw = s.raw := rfl
@[simp] theorem State.issueRead_report (a : Bool) : (s.issueRead a).report = s.report := rfl
@[simp] theorem State.issueRead_calMax (a : Bool) : (s.issueRead a).calMax = s.calMax := rfl
@[simp] theorem State.issueRead_calMin (a : Bool) : (s.issueRead a).calMin = s.calMin := rfl
@[simp] theorem State.issueRead_ok (a : Bool) : (s.issueRead a).ok = s.ok := rfl
@[simp] theorem State.issueRead_restartReq (a : Bool) : (s.issueRead a).restartReq = s.restartReq := rfl
@[simp] theorem State.issueRead_inited (a : Bool) : (s.issueRead a).inited = s.inited := rfl
@[simp] theorem State.issueRead_busOwn (a : Bool) : (s.issueRead a).busOwn = s.busOwn := rfl
@[simp] theorem State.issueRead_errClass (a : Bool) : (s.issueRead a).errClass = s.errClass := rfl
@[simp] theorem State.issueRead_errPh (a : Bool) : (s.issueRead a).errPh = s.errPh := rfl
@[simp] theorem State.issueRead_errTx (a : Bool) : (s.issueRead a).errTx = s.errTx := rfl
@[simp] theorem State.issueRead_errIdx (a : Bool) : (s.issueRead a).errIdx = s.errIdx := rfl
@[simp] theorem State.issueRead_done (a : Bool) : (s.issueRead a).done = s.done := rfl
@[simp] theorem State.issueRead_drvValid (a : Bool) : (s.issueRead a).drvValid = true := rfl
@[simp] theorem State.issueRead_drvCmd (a : Bool) : (s.issueRead a).drvCmd = drvWord 0b10#2 a 0x00#8 := rfl
@[simp] theorem State.issueRead_inp (a : Bool) : (s.issueRead a).inp = s.inp := rfl
@[simp] theorem State.issueRead_inputs (a : Bool) : (s.issueRead a).inputs = s.inputs := rfl
@[simp] theorem State.issueRead_drawn (a : Bool) : (s.issueRead a).drawn = s.drawn := rfl
@[simp] theorem State.issueRead_trace (a : Bool) : (s.issueRead a).trace = s.trace ++ [drvWord 0b10#2 a 0x00#8] := rfl
@[simp] theorem State.issueRead_latch (a : Bool) : (s.issueRead a).latch = s.latch := rfl
@[simp] theorem State.issueRead_slot (a : Bool) : (s.issueRead a).slot = s.slot := rfl

@[simp] theorem State.issueStop_cfg : (s.issueStop).cfg = s.cfg := rfl
@[simp] theorem State.issueStop_ph : (s.issueStop).ph = s.ph := rfl
@[simp] theorem State.issueStop_tx : (s.issueStop).tx = s.tx := rfl
@[simp] theorem State.issueStop_idx : (s.issueStop).idx = s.idx := rfl
@[simp] theorem State.issueStop_tmr : (s.issueStop).tmr = s.tmr := rfl
@[simp] theorem State.issueStop_raw : (s.issueStop).raw = s.raw := rfl
@[simp] theorem State.issueStop_report : (s.issueStop).report = s.report := rfl
@[simp] theorem State.issueStop_calMax : (s.issueStop).calMax = s.calMax := rfl
@[simp] theorem State.issueStop_calMin : (s.issueStop).calMin = s.calMin := rfl
@[simp] theorem State.issueStop_ok : (s.issueStop).ok = s.ok := rfl
@[simp] theorem State.issueStop_restartReq : (s.issueStop).restartReq = s.restartReq := rfl
@[simp] theorem State.issueStop_inited : (s.issueStop).inited = s.inited := rfl
@[simp] theorem State.issueStop_busOwn : (s.issueStop).busOwn = false := rfl
@[simp] theorem State.issueStop_errClass : (s.issueStop).errClass = s.errClass := rfl
@[simp] theorem State.issueStop_errPh : (s.issueStop).errPh = s.errPh := rfl
@[simp] theorem State.issueStop_errTx : (s.issueStop).errTx = s.errTx := rfl
@[simp] theorem State.issueStop_errIdx : (s.issueStop).errIdx = s.errIdx := rfl
@[simp] theorem State.issueStop_done : (s.issueStop).done = s.done := rfl
@[simp] theorem State.issueStop_drvValid : (s.issueStop).drvValid = true := rfl
@[simp] theorem State.issueStop_drvCmd : (s.issueStop).drvCmd = drvWord 0b11#2 false 0x00#8 := rfl
@[simp] theorem State.issueStop_inp : (s.issueStop).inp = s.inp := rfl
@[simp] theorem State.issueStop_inputs : (s.issueStop).inputs = s.inputs := rfl
@[simp] theorem State.issueStop_drawn : (s.issueStop).drawn = s.drawn := rfl
@[simp] theorem State.issueStop_trace : (s.issueStop).trace = s.trace ++ [drvWord 0b11#2 false 0x00#8] := rfl
@[simp] theorem State.issueStop_latch : (s.issueStop).latch = s.latch := rfl
@[simp] theorem State.issueStop_slot : (s.issueStop).slot = s.slot := rfl

@[simp] theorem State.record_cfg (c : ErrClass) : (s.record c).cfg = s.cfg := rfl
@[simp] theorem State.record_ph (c : ErrClass) : (s.record c).ph = s.ph := rfl
@[simp] theorem State.record_tx (c : ErrClass) : (s.record c).tx = s.tx := rfl
@[simp] theorem State.record_idx (c : ErrClass) : (s.record c).idx = s.idx := rfl
@[simp] theorem State.record_tmr (c : ErrClass) : (s.record c).tmr = s.tmr := rfl
@[simp] theorem State.record_raw (c : ErrClass) : (s.record c).raw = s.raw := rfl
@[simp] theorem State.record_report (c : ErrClass) : (s.record c).report = s.report := rfl
@[simp] theorem State.record_calMax (c : ErrClass) : (s.record c).calMax = s.calMax := rfl
@[simp] theorem State.record_calMin (c : ErrClass) : (s.record c).calMin = s.calMin := rfl
@[simp] theorem State.record_ok (c : ErrClass) : (s.record c).ok = s.ok := rfl
@[simp] theorem State.record_restartReq (c : ErrClass) : (s.record c).restartReq = s.restartReq := rfl
@[simp] theorem State.record_inited (c : ErrClass) : (s.record c).inited = s.inited := rfl
@[simp] theorem State.record_busOwn (c : ErrClass) : (s.record c).busOwn = s.busOwn := rfl
@[simp] theorem State.record_errClass (c : ErrClass) : (s.record c).errClass = c := rfl
@[simp] theorem State.record_errPh (c : ErrClass) : (s.record c).errPh = s.ph := rfl
@[simp] theorem State.record_errTx (c : ErrClass) : (s.record c).errTx = s.tx := rfl
@[simp] theorem State.record_errIdx (c : ErrClass) : (s.record c).errIdx = s.idx := rfl
@[simp] theorem State.record_done (c : ErrClass) : (s.record c).done = s.done := rfl
@[simp] theorem State.record_drvValid (c : ErrClass) : (s.record c).drvValid = s.drvValid := rfl
@[simp] theorem State.record_drvCmd (c : ErrClass) : (s.record c).drvCmd = s.drvCmd := rfl
@[simp] theorem State.record_inp (c : ErrClass) : (s.record c).inp = s.inp := rfl
@[simp] theorem State.record_inputs (c : ErrClass) : (s.record c).inputs = s.inputs := rfl
@[simp] theorem State.record_drawn (c : ErrClass) : (s.record c).drawn = s.drawn := rfl
@[simp] theorem State.record_trace (c : ErrClass) : (s.record c).trace = s.trace := rfl
@[simp] theorem State.record_latch (c : ErrClass) : (s.record c).latch = s.latch := rfl
@[simp] theorem State.record_slot (c : ErrClass) : (s.record c).slot = s.slot := rfl

@[simp] theorem State.clearRecord_cfg : (s.clearRecord).cfg = s.cfg := rfl
@[simp] theorem State.clearRecord_ph : (s.clearRecord).ph = s.ph := rfl
@[simp] theorem State.clearRecord_tx : (s.clearRecord).tx = s.tx := rfl
@[simp] theorem State.clearRecord_idx : (s.clearRecord).idx = s.idx := rfl
@[simp] theorem State.clearRecord_tmr : (s.clearRecord).tmr = s.tmr := rfl
@[simp] theorem State.clearRecord_raw : (s.clearRecord).raw = s.raw := rfl
@[simp] theorem State.clearRecord_report : (s.clearRecord).report = s.report := rfl
@[simp] theorem State.clearRecord_calMax : (s.clearRecord).calMax = s.calMax := rfl
@[simp] theorem State.clearRecord_calMin : (s.clearRecord).calMin = s.calMin := rfl
@[simp] theorem State.clearRecord_ok : (s.clearRecord).ok = s.ok := rfl
@[simp] theorem State.clearRecord_restartReq : (s.clearRecord).restartReq = s.restartReq := rfl
@[simp] theorem State.clearRecord_inited : (s.clearRecord).inited = s.inited := rfl
@[simp] theorem State.clearRecord_busOwn : (s.clearRecord).busOwn = s.busOwn := rfl
@[simp] theorem State.clearRecord_errClass : (s.clearRecord).errClass = .noError := rfl
@[simp] theorem State.clearRecord_errPh : (s.clearRecord).errPh = .idle := rfl
@[simp] theorem State.clearRecord_errTx : (s.clearRecord).errTx = .tOff := rfl
@[simp] theorem State.clearRecord_errIdx : (s.clearRecord).errIdx = 0#3 := rfl
@[simp] theorem State.clearRecord_done : (s.clearRecord).done = s.done := rfl
@[simp] theorem State.clearRecord_drvValid : (s.clearRecord).drvValid = s.drvValid := rfl
@[simp] theorem State.clearRecord_drvCmd : (s.clearRecord).drvCmd = s.drvCmd := rfl
@[simp] theorem State.clearRecord_inp : (s.clearRecord).inp = s.inp := rfl
@[simp] theorem State.clearRecord_inputs : (s.clearRecord).inputs = s.inputs := rfl
@[simp] theorem State.clearRecord_drawn : (s.clearRecord).drawn = s.drawn := rfl
@[simp] theorem State.clearRecord_trace : (s.clearRecord).trace = s.trace := rfl
@[simp] theorem State.clearRecord_latch : (s.clearRecord).latch = s.latch := rfl
@[simp] theorem State.clearRecord_slot : (s.clearRecord).slot = s.slot := rfl

@[simp] theorem State.finish_cfg (b : Bool) : (s.finish b).cfg = s.cfg := rfl
@[simp] theorem State.finish_ph (b : Bool) : (s.finish b).ph = .idle := rfl
@[simp] theorem State.finish_tx (b : Bool) : (s.finish b).tx = s.tx := rfl
@[simp] theorem State.finish_idx (b : Bool) : (s.finish b).idx = s.idx := rfl
@[simp] theorem State.finish_tmr (b : Bool) : (s.finish b).tmr = s.tmr := rfl
@[simp] theorem State.finish_raw (b : Bool) : (s.finish b).raw = s.raw := rfl
@[simp] theorem State.finish_report (b : Bool) : (s.finish b).report = s.report := rfl
@[simp] theorem State.finish_calMax (b : Bool) : (s.finish b).calMax = s.calMax := rfl
@[simp] theorem State.finish_calMin (b : Bool) : (s.finish b).calMin = s.calMin := rfl
@[simp] theorem State.finish_ok (b : Bool) : (s.finish b).ok = b := rfl
@[simp] theorem State.finish_restartReq (b : Bool) : (s.finish b).restartReq = s.restartReq := rfl
@[simp] theorem State.finish_inited (b : Bool) : (s.finish b).inited = s.inited := rfl
@[simp] theorem State.finish_busOwn (b : Bool) : (s.finish b).busOwn = s.busOwn := rfl
@[simp] theorem State.finish_errClass (b : Bool) : (s.finish b).errClass = s.errClass := rfl
@[simp] theorem State.finish_errPh (b : Bool) : (s.finish b).errPh = s.errPh := rfl
@[simp] theorem State.finish_errTx (b : Bool) : (s.finish b).errTx = s.errTx := rfl
@[simp] theorem State.finish_errIdx (b : Bool) : (s.finish b).errIdx = s.errIdx := rfl
@[simp] theorem State.finish_done (b : Bool) : (s.finish b).done = true := rfl
@[simp] theorem State.finish_drvValid (b : Bool) : (s.finish b).drvValid = s.drvValid := rfl
@[simp] theorem State.finish_drvCmd (b : Bool) : (s.finish b).drvCmd = s.drvCmd := rfl
@[simp] theorem State.finish_inp (b : Bool) : (s.finish b).inp = s.inp := rfl
@[simp] theorem State.finish_inputs (b : Bool) : (s.finish b).inputs = s.inputs := rfl
@[simp] theorem State.finish_drawn (b : Bool) : (s.finish b).drawn = s.drawn := rfl
@[simp] theorem State.finish_trace (b : Bool) : (s.finish b).trace = s.trace := rfl
@[simp] theorem State.finish_latch (b : Bool) : (s.finish b).latch = s.latch := rfl
@[simp] theorem State.finish_slot (b : Bool) : (s.finish b).slot = s.slot := rfl

@[simp] theorem State.endTransaction_cfg (b : Bool) : (s.endTransaction b).cfg = s.cfg := rfl
@[simp] theorem State.endTransaction_ph (b : Bool) : (s.endTransaction b).ph = s.ph := rfl
@[simp] theorem State.endTransaction_tx (b : Bool) : (s.endTransaction b).tx = .tOff := rfl
@[simp] theorem State.endTransaction_idx (b : Bool) : (s.endTransaction b).idx = 0#3 := rfl
@[simp] theorem State.endTransaction_tmr (b : Bool) : (s.endTransaction b).tmr = s.tmr := rfl
@[simp] theorem State.endTransaction_raw (b : Bool) : (s.endTransaction b).raw = s.raw := rfl
@[simp] theorem State.endTransaction_report (b : Bool) : (s.endTransaction b).report = s.report := rfl
@[simp] theorem State.endTransaction_calMax (b : Bool) : (s.endTransaction b).calMax = s.calMax := rfl
@[simp] theorem State.endTransaction_calMin (b : Bool) : (s.endTransaction b).calMin = s.calMin := rfl
@[simp] theorem State.endTransaction_ok (b : Bool) : (s.endTransaction b).ok = s.ok := rfl
@[simp] theorem State.endTransaction_restartReq (b : Bool) : (s.endTransaction b).restartReq = s.restartReq := rfl
@[simp] theorem State.endTransaction_inited (b : Bool) : (s.endTransaction b).inited = s.inited := rfl
@[simp] theorem State.endTransaction_busOwn (b : Bool) : (s.endTransaction b).busOwn = s.busOwn := rfl
@[simp] theorem State.endTransaction_errClass (b : Bool) : (s.endTransaction b).errClass = s.errClass := rfl
@[simp] theorem State.endTransaction_errPh (b : Bool) : (s.endTransaction b).errPh = s.errPh := rfl
@[simp] theorem State.endTransaction_errTx (b : Bool) : (s.endTransaction b).errTx = s.errTx := rfl
@[simp] theorem State.endTransaction_errIdx (b : Bool) : (s.endTransaction b).errIdx = s.errIdx := rfl
@[simp] theorem State.endTransaction_done (b : Bool) : (s.endTransaction b).done = s.done := rfl
@[simp] theorem State.endTransaction_drvValid (b : Bool) : (s.endTransaction b).drvValid = s.drvValid := rfl
@[simp] theorem State.endTransaction_drvCmd (b : Bool) : (s.endTransaction b).drvCmd = s.drvCmd := rfl
@[simp] theorem State.endTransaction_inp (b : Bool) : (s.endTransaction b).inp = s.inp := rfl
@[simp] theorem State.endTransaction_inputs (b : Bool) : (s.endTransaction b).inputs = s.inputs := rfl
@[simp] theorem State.endTransaction_drawn (b : Bool) : (s.endTransaction b).drawn = s.drawn := rfl
@[simp] theorem State.endTransaction_trace (b : Bool) : (s.endTransaction b).trace = s.trace := rfl
@[simp] theorem State.endTransaction_latch (b : Bool) : (s.endTransaction b).latch = { s.latch with result := b } := rfl
@[simp] theorem State.endTransaction_slot (b : Bool) : (s.endTransaction b).slot = s.slot := rfl

@[simp] theorem State.failTransaction_cfg (c : ErrClass) : (s.failTransaction c).cfg = s.cfg := rfl
@[simp] theorem State.failTransaction_ph (c : ErrClass) : (s.failTransaction c).ph = s.ph := rfl
@[simp] theorem State.failTransaction_tx (c : ErrClass) : (s.failTransaction c).tx = .tOff := rfl
@[simp] theorem State.failTransaction_idx (c : ErrClass) : (s.failTransaction c).idx = 0#3 := rfl
@[simp] theorem State.failTransaction_tmr (c : ErrClass) : (s.failTransaction c).tmr = s.tmr := rfl
@[simp] theorem State.failTransaction_raw (c : ErrClass) : (s.failTransaction c).raw = s.raw := rfl
@[simp] theorem State.failTransaction_report (c : ErrClass) : (s.failTransaction c).report = s.report := rfl
@[simp] theorem State.failTransaction_calMax (c : ErrClass) : (s.failTransaction c).calMax = s.calMax := rfl
@[simp] theorem State.failTransaction_calMin (c : ErrClass) : (s.failTransaction c).calMin = s.calMin := rfl
@[simp] theorem State.failTransaction_ok (c : ErrClass) : (s.failTransaction c).ok = s.ok := rfl
@[simp] theorem State.failTransaction_restartReq (c : ErrClass) : (s.failTransaction c).restartReq = s.restartReq := rfl
@[simp] theorem State.failTransaction_inited (c : ErrClass) : (s.failTransaction c).inited = s.inited := rfl
@[simp] theorem State.failTransaction_busOwn (c : ErrClass) : (s.failTransaction c).busOwn = false := rfl
@[simp] theorem State.failTransaction_errClass (c : ErrClass) : (s.failTransaction c).errClass = c := rfl
@[simp] theorem State.failTransaction_errPh (c : ErrClass) : (s.failTransaction c).errPh = s.ph := rfl
@[simp] theorem State.failTransaction_errTx (c : ErrClass) : (s.failTransaction c).errTx = s.tx := rfl
@[simp] theorem State.failTransaction_errIdx (c : ErrClass) : (s.failTransaction c).errIdx = s.idx := rfl
@[simp] theorem State.failTransaction_done (c : ErrClass) : (s.failTransaction c).done = s.done := rfl
@[simp] theorem State.failTransaction_drvValid (c : ErrClass) : (s.failTransaction c).drvValid = true := rfl
@[simp] theorem State.failTransaction_drvCmd (c : ErrClass) :
    (s.failTransaction c).drvCmd = drvWord 0b11#2 false 0x00#8 := rfl
@[simp] theorem State.failTransaction_inp (c : ErrClass) : (s.failTransaction c).inp = s.inp := rfl
@[simp] theorem State.failTransaction_inputs (c : ErrClass) : (s.failTransaction c).inputs = s.inputs := rfl
@[simp] theorem State.failTransaction_drawn (c : ErrClass) : (s.failTransaction c).drawn = s.drawn := rfl
@[simp] theorem State.failTransaction_trace (c : ErrClass) :
    (s.failTransaction c).trace = s.trace ++ [drvWord 0b11#2 false 0x00#8] := rfl
@[simp] theorem State.failTransaction_latch (c : ErrClass) :
    (s.failTransaction c).latch = { s.latch with result := false } := rfl
@[simp] theorem State.failTransaction_slot (c : ErrClass) : (s.failTransaction c).slot = s.slot := rfl

@[simp] theorem State.deviceFailure_cfg : (s.deviceFailure).cfg = s.cfg := rfl
@[simp] theorem State.deviceFailure_ph : (s.deviceFailure).ph = .idle := rfl
@[simp] theorem State.deviceFailure_tx : (s.deviceFailure).tx = s.tx := rfl
@[simp] theorem State.deviceFailure_idx : (s.deviceFailure).idx = s.idx := rfl
@[simp] theorem State.deviceFailure_tmr : (s.deviceFailure).tmr = s.tmr := rfl
@[simp] theorem State.deviceFailure_raw : (s.deviceFailure).raw = s.raw := rfl
@[simp] theorem State.deviceFailure_report : (s.deviceFailure).report = s.report := rfl
@[simp] theorem State.deviceFailure_calMax : (s.deviceFailure).calMax = s.calMax := rfl
@[simp] theorem State.deviceFailure_calMin : (s.deviceFailure).calMin = s.calMin := rfl
@[simp] theorem State.deviceFailure_ok : (s.deviceFailure).ok = false := rfl
@[simp] theorem State.deviceFailure_restartReq : (s.deviceFailure).restartReq = true := rfl
@[simp] theorem State.deviceFailure_inited : (s.deviceFailure).inited = s.inited := rfl
@[simp] theorem State.deviceFailure_busOwn : (s.deviceFailure).busOwn = s.busOwn := rfl
@[simp] theorem State.deviceFailure_errClass : (s.deviceFailure).errClass = .deviceFailureSignature := rfl
@[simp] theorem State.deviceFailure_errPh : (s.deviceFailure).errPh = s.ph := rfl
@[simp] theorem State.deviceFailure_errTx : (s.deviceFailure).errTx = s.tx := rfl
@[simp] theorem State.deviceFailure_errIdx : (s.deviceFailure).errIdx = s.idx := rfl
@[simp] theorem State.deviceFailure_done : (s.deviceFailure).done = true := rfl
@[simp] theorem State.deviceFailure_drvValid : (s.deviceFailure).drvValid = s.drvValid := rfl
@[simp] theorem State.deviceFailure_drvCmd : (s.deviceFailure).drvCmd = s.drvCmd := rfl
@[simp] theorem State.deviceFailure_inp : (s.deviceFailure).inp = s.inp := rfl
@[simp] theorem State.deviceFailure_inputs : (s.deviceFailure).inputs = s.inputs := rfl
@[simp] theorem State.deviceFailure_drawn : (s.deviceFailure).drawn = s.drawn := rfl
@[simp] theorem State.deviceFailure_trace : (s.deviceFailure).trace = s.trace := rfl
@[simp] theorem State.deviceFailure_latch : (s.deviceFailure).latch = s.latch := rfl
@[simp] theorem State.deviceFailure_slot : (s.deviceFailure).slot = s.slot := rfl

@[simp] theorem State.beginPhase_cfg (p : Phase) : (s.beginPhase p).cfg = s.cfg := rfl
@[simp] theorem State.beginPhase_ph (p : Phase) : (s.beginPhase p).ph = p := rfl
@[simp] theorem State.beginPhase_tx (p : Phase) : (s.beginPhase p).tx = .tStart := rfl
@[simp] theorem State.beginPhase_idx (p : Phase) : (s.beginPhase p).idx = 0#3 := rfl
@[simp] theorem State.beginPhase_tmr (p : Phase) : (s.beginPhase p).tmr = s.cfg.timeout := rfl
@[simp] theorem State.beginPhase_raw (p : Phase) : (s.beginPhase p).raw = s.raw := rfl
@[simp] theorem State.beginPhase_report (p : Phase) : (s.beginPhase p).report = s.report := rfl
@[simp] theorem State.beginPhase_calMax (p : Phase) : (s.beginPhase p).calMax = s.calMax := rfl
@[simp] theorem State.beginPhase_calMin (p : Phase) : (s.beginPhase p).calMin = s.calMin := rfl
@[simp] theorem State.beginPhase_ok (p : Phase) : (s.beginPhase p).ok = s.ok := rfl
@[simp] theorem State.beginPhase_restartReq (p : Phase) : (s.beginPhase p).restartReq = s.restartReq := rfl
@[simp] theorem State.beginPhase_inited (p : Phase) : (s.beginPhase p).inited = s.inited := rfl
@[simp] theorem State.beginPhase_busOwn (p : Phase) : (s.beginPhase p).busOwn = true := rfl
@[simp] theorem State.beginPhase_errClass (p : Phase) : (s.beginPhase p).errClass = s.errClass := rfl
@[simp] theorem State.beginPhase_errPh (p : Phase) : (s.beginPhase p).errPh = s.errPh := rfl
@[simp] theorem State.beginPhase_errTx (p : Phase) : (s.beginPhase p).errTx = s.errTx := rfl
@[simp] theorem State.beginPhase_errIdx (p : Phase) : (s.beginPhase p).errIdx = s.errIdx := rfl
@[simp] theorem State.beginPhase_done (p : Phase) : (s.beginPhase p).done = s.done := rfl
@[simp] theorem State.beginPhase_drvValid (p : Phase) : (s.beginPhase p).drvValid = true := rfl
@[simp] theorem State.beginPhase_drvCmd (p : Phase) : (s.beginPhase p).drvCmd = drvWord 0b00#2 false 0x00#8 := rfl
@[simp] theorem State.beginPhase_inp (p : Phase) : (s.beginPhase p).inp = s.inp := rfl
@[simp] theorem State.beginPhase_inputs (p : Phase) : (s.beginPhase p).inputs = s.inputs := rfl
@[simp] theorem State.beginPhase_drawn (p : Phase) : (s.beginPhase p).drawn = s.drawn := rfl
@[simp] theorem State.beginPhase_trace (p : Phase) :
    (s.beginPhase p).trace = s.trace ++ [drvWord 0b00#2 false 0x00#8] := rfl
@[simp] theorem State.beginPhase_latch (p : Phase) : (s.beginPhase p).latch = s.latch := rfl
@[simp] theorem State.beginPhase_slot (p : Phase) : (s.beginPhase p).slot = s.slot := rfl

@[simp] theorem State.doReset_cfg : (s.doReset).cfg = s.cfg := rfl
@[simp] theorem State.doReset_ph : (s.doReset).ph = .idle := rfl
@[simp] theorem State.doReset_tx : (s.doReset).tx = .tOff := rfl
@[simp] theorem State.doReset_idx : (s.doReset).idx = 0#3 := rfl
@[simp] theorem State.doReset_tmr : (s.doReset).tmr = 0 := rfl
@[simp] theorem State.doReset_raw : (s.doReset).raw = (State.resetOf s.cfg).raw := rfl
@[simp] theorem State.doReset_report : (s.doReset).report = s.cfg.reportInit := rfl
@[simp] theorem State.doReset_calMax : (s.doReset).calMax = (State.resetOf s.cfg).calMax := rfl
@[simp] theorem State.doReset_calMin : (s.doReset).calMin = (State.resetOf s.cfg).calMin := rfl
@[simp] theorem State.doReset_ok : (s.doReset).ok = false := rfl
@[simp] theorem State.doReset_restartReq : (s.doReset).restartReq = false := rfl
@[simp] theorem State.doReset_inited : (s.doReset).inited = false := rfl
@[simp] theorem State.doReset_busOwn : (s.doReset).busOwn = false := rfl
@[simp] theorem State.doReset_errClass : (s.doReset).errClass = .noError := rfl
@[simp] theorem State.doReset_errPh : (s.doReset).errPh = .idle := rfl
@[simp] theorem State.doReset_errTx : (s.doReset).errTx = .tOff := rfl
@[simp] theorem State.doReset_errIdx : (s.doReset).errIdx = 0#3 := rfl
@[simp] theorem State.doReset_done : (s.doReset).done = false := rfl
@[simp] theorem State.doReset_drvValid : (s.doReset).drvValid = false := rfl
@[simp] theorem State.doReset_drvCmd : (s.doReset).drvCmd = 0#11 := rfl
@[simp] theorem State.doReset_inp : (s.doReset).inp = s.inp := rfl
@[simp] theorem State.doReset_inputs : (s.doReset).inputs = s.inputs := rfl
@[simp] theorem State.doReset_drawn : (s.doReset).drawn = s.drawn := rfl
@[simp] theorem State.doReset_trace : (s.doReset).trace = s.trace := rfl
@[simp] theorem State.doReset_latch : (s.doReset).latch = (State.resetOf s.cfg).latch := rfl
@[simp] theorem State.doReset_slot : (s.doReset).slot = none := rfl

@[simp] theorem State.sample_cfg : s.sample.cfg = s.cfg := by unfold State.sample; split <;> rfl
@[simp] theorem State.sample_ph : s.sample.ph = s.ph := by unfold State.sample; split <;> rfl
@[simp] theorem State.sample_tx : s.sample.tx = s.tx := by unfold State.sample; split <;> rfl
@[simp] theorem State.sample_idx : s.sample.idx = s.idx := by unfold State.sample; split <;> rfl
@[simp] theorem State.sample_tmr : s.sample.tmr = s.tmr := by unfold State.sample; split <;> rfl
@[simp] theorem State.sample_raw : s.sample.raw = s.raw := by unfold State.sample; split <;> rfl
@[simp] theorem State.sample_report : s.sample.report = s.report := by unfold State.sample; split <;> rfl
@[simp] theorem State.sample_calMax : s.sample.calMax = s.calMax := by unfold State.sample; split <;> rfl
@[simp] theorem State.sample_calMin : s.sample.calMin = s.calMin := by unfold State.sample; split <;> rfl
@[simp] theorem State.sample_ok : s.sample.ok = s.ok := by unfold State.sample; split <;> rfl
@[simp] theorem State.sample_restartReq : s.sample.restartReq = s.restartReq := by unfold State.sample; split <;> rfl
@[simp] theorem State.sample_inited : s.sample.inited = s.inited := by unfold State.sample; split <;> rfl
@[simp] theorem State.sample_busOwn : s.sample.busOwn = s.busOwn := by unfold State.sample; split <;> rfl
@[simp] theorem State.sample_errClass : s.sample.errClass = s.errClass := by unfold State.sample; split <;> rfl
@[simp] theorem State.sample_errPh : s.sample.errPh = s.errPh := by unfold State.sample; split <;> rfl
@[simp] theorem State.sample_errTx : s.sample.errTx = s.errTx := by unfold State.sample; split <;> rfl
@[simp] theorem State.sample_errIdx : s.sample.errIdx = s.errIdx := by unfold State.sample; split <;> rfl
@[simp] theorem State.sample_done : s.sample.done = false := by unfold State.sample; split <;> rfl
@[simp] theorem State.sample_drvValid : s.sample.drvValid = false := by unfold State.sample; split <;> rfl
@[simp] theorem State.sample_drvCmd : s.sample.drvCmd = s.drvCmd := by unfold State.sample; split <;> rfl
@[simp] theorem State.sample_trace : s.sample.trace = s.trace := by unfold State.sample; split <;> rfl
@[simp] theorem State.sample_latch : s.sample.latch = s.latch := by unfold State.sample; split <;> rfl
@[simp] theorem State.sample_slot : s.sample.slot = s.slot := by unfold State.sample; split <;> rfl

@[simp] theorem State.complete_cfg (b : Bool) : (s.complete b).cfg = s.cfg := by
  unfold State.complete; split <;> rfl
@[simp] theorem State.complete_tx (b : Bool) : (s.complete b).tx = s.tx := by
  unfold State.complete; split <;> rfl
@[simp] theorem State.complete_idx (b : Bool) : (s.complete b).idx = s.idx := by
  unfold State.complete; split <;> rfl
@[simp] theorem State.complete_raw (b : Bool) : (s.complete b).raw = s.raw := by
  unfold State.complete; split <;> rfl
@[simp] theorem State.complete_report (b : Bool) : (s.complete b).report = s.report := by
  unfold State.complete; split <;> rfl
@[simp] theorem State.complete_calMax (b : Bool) : (s.complete b).calMax = s.calMax := by
  unfold State.complete; split <;> rfl
@[simp] theorem State.complete_calMin (b : Bool) : (s.complete b).calMin = s.calMin := by
  unfold State.complete; split <;> rfl
@[simp] theorem State.complete_restartReq (b : Bool) : (s.complete b).restartReq = s.restartReq := by
  unfold State.complete; split <;> rfl
@[simp] theorem State.complete_busOwn (b : Bool) : (s.complete b).busOwn = s.busOwn := by
  unfold State.complete; split <;> rfl
@[simp] theorem State.complete_errClass (b : Bool) : (s.complete b).errClass = s.errClass := by
  unfold State.complete; split <;> rfl
@[simp] theorem State.complete_errPh (b : Bool) : (s.complete b).errPh = s.errPh := by
  unfold State.complete; split <;> rfl
@[simp] theorem State.complete_errTx (b : Bool) : (s.complete b).errTx = s.errTx := by
  unfold State.complete; split <;> rfl
@[simp] theorem State.complete_errIdx (b : Bool) : (s.complete b).errIdx = s.errIdx := by
  unfold State.complete; split <;> rfl
@[simp] theorem State.complete_drvValid (b : Bool) : (s.complete b).drvValid = s.drvValid := by
  unfold State.complete; split <;> rfl
@[simp] theorem State.complete_drvCmd (b : Bool) : (s.complete b).drvCmd = s.drvCmd := by
  unfold State.complete; split <;> rfl
@[simp] theorem State.complete_inp (b : Bool) : (s.complete b).inp = s.inp := by
  unfold State.complete; split <;> rfl
@[simp] theorem State.complete_inputs (b : Bool) : (s.complete b).inputs = s.inputs := by
  unfold State.complete; split <;> rfl
@[simp] theorem State.complete_drawn (b : Bool) : (s.complete b).drawn = s.drawn := by
  unfold State.complete; split <;> rfl
@[simp] theorem State.complete_trace (b : Bool) : (s.complete b).trace = s.trace := by
  unfold State.complete; split <;> rfl
@[simp] theorem State.complete_latch (b : Bool) : (s.complete b).latch = s.latch := by
  unfold State.complete; split <;> rfl
@[simp] theorem State.complete_slot (b : Bool) : (s.complete b).slot = s.slot := by
  unfold State.complete; split <;> rfl

end Sys2Proof.Machine
end

