-- ==== Sys2Proof/Laws/Step.lean ====
section
/-! SUPPORT. What a step can do, said once: the outcomes of `Verify`, `Complete` and a transaction's step (spec/40_bus_driver.md R95,
spec/45_poll_cycle.md R171, spec/41_bus_transactions.md R114 to R117), and the cases of a tick of the hardware. -/

namespace Sys2Proof.Machine

/-- What `Verify` can yield (R95). -/
theorem verify_cases (a : Answer) (e : List Byte) :
    (∃ st rd, a = .done st rd ∧ st ∈ e ∧ verify a e = .pass rd) ∨
    (∃ st rd, a = .done st rd ∧ st ∉ e ∧ verify a e = .raise .busPhaseError) ∨
    (a = .timeout ∧ verify a e = .raise .busTimeoutError) := by
  cases a with
  | timeout => exact .inr (.inr ⟨rfl, rfl⟩)
  | done st rd =>
    by_cases h : st ∈ e
    · exact .inl ⟨st, rd, rfl, h, by simp [verify, h]⟩
    · exact .inr (.inl ⟨st, rd, rfl, h, by simp [verify, h]⟩)

/-- The sampled state is legal exactly when the state is. -/
@[simp] theorem State.sample_seqLegal (s : State) : s.sample.seqLegal = s.seqLegal := by
  simp [State.seqLegal]

/-- A legal state with a transaction in progress is in a phase that runs one (R17, R33). -/
theorem State.transacts_of_legal {s : State} (h : s.seqLegal = true) (ht : s.tx ≠ .tOff) : s.ph.transacts = true := by
  cases hp : s.ph <;> cases hx : s.tx <;> simp_all [State.seqLegal, Phase.transacts]

/-- A legal state with no transaction in progress is in a phase that runs none (R33). -/
theorem State.quiet_of_legal {s : State} (h : s.seqLegal = true) (ht : s.tx = .tOff) : s.ph.transacts = false := by
  cases hp : s.ph <;> simp_all [State.seqLegal, Phase.transacts]

/-- `Complete(false)` ends the command (R171). -/
theorem State.complete_false {s : State} (h : s.ph.transacts = true) : s.complete false = s.finish false := by
  cases hp : s.ph <;> simp_all [State.complete, Phase.transacts]

/-- The abort path in a phase that runs a transaction (R204). -/
theorem State.abort_eq {s : State} (c : ErrClass) (h : s.ph.transacts = true) :
    s.abort c = (s.failTransaction c).finish false :=
  State.complete_false h

/-- What a transaction's step does with its answer (R95): it goes on, or it aborts with the error's class. -/
theorem State.answerStep_cases (s : State) (a : Answer) :
    (∃ st rd, a = .done st rd ∧ st ∈ expectedStatus s.cfg s.tx s.ph.dir s.idx.toNat ∧ s.answerStep a = s.advance rd) ∨
    (∃ st rd, a = .done st rd ∧ st ∉ expectedStatus s.cfg s.tx s.ph.dir s.idx.toNat ∧
      s.answerStep a = s.abort .busPhaseError) ∨
    (a = .timeout ∧ s.answerStep a = s.abort .busTimeoutError) := by
  rcases verify_cases a (expectedStatus s.cfg s.tx s.ph.dir s.idx.toNat) with
    ⟨st, rd, rfl, hm, hv⟩ | ⟨st, rd, rfl, hm, hv⟩ | ⟨rfl, hv⟩
  · exact .inl ⟨st, rd, rfl, hm, by rw [State.answerStep, hv]⟩
  · exact .inr (.inl ⟨st, rd, rfl, hm, by rw [State.answerStep, hv]⟩)
  · exact .inr (.inr ⟨rfl, by rw [State.answerStep, hv]⟩)

/-- The fields a transaction's step leaves alone, whatever the answer (R114 to R117, R204). -/
theorem State.answerStep_frame (s : State) (a : Answer) :
    (s.answerStep a).cfg = s.cfg ∧ (s.answerStep a).report = s.report ∧ (s.answerStep a).calMax = s.calMax ∧
    (s.answerStep a).calMin = s.calMin ∧ (s.answerStep a).restartReq = s.restartReq ∧ (s.answerStep a).inp = s.inp ∧
    (s.answerStep a).inputs = s.inputs ∧ (s.answerStep a).drawn = s.drawn ∧ (s.answerStep a).slot = s.slot := by
  rcases s.answerStep_cases a with ⟨_, _, _, _, h⟩ | ⟨_, _, _, _, h⟩ | ⟨_, h⟩ <;> rw [h]
  · unfold State.advance
    split
    · simp
    · simp
    · split <;> simp
    · split <;> split <;> (try split) <;> simp
  · simp [State.abort]
  · simp [State.abort]

/-- What a tick of the hardware can do: reset; a step of the phase in `PH`; a host command; or nothing but sampling. -/
theorem step_cases {s t : State} (hslot : s.slot = none) (h : step s = .next t) :
    s.cfg.wf = true ∧
    ((s.sample.inp.rst = true ∧ t = s.sample.doReset) ∨
     (s.sample.inp.rst = false ∧ s.seqLegal = true ∧
      ((∃ i, s.ph.operation = some i ∧ exec i s.sample = .next t) ∨
       (s.ph = .idle ∧ s.sample.inp.cmdValid = true ∧
         ((s.sample.inp.cmdOp = 1#2 ∧ exec .init s.sample = .next t) ∨
          (s.sample.inp.cmdOp = 2#2 ∧ exec .poll s.sample = .next t))) ∨
       (s.ph = .idle ∧ t = s.sample)))) := by
  unfold step State.fetch at h
  by_cases hw : s.cfg.wf = true
  case neg => simp [hw] at h
  refine ⟨hw, ?_⟩
  simp only [hw, if_true, hslot, State.fetchTick, State.sample_seqLegal, State.sample_ph] at h
  by_cases hr : s.sample.inp.rst = true
  · simp only [hr, if_true, Host.Outcome.next.injEq] at h
    exact .inl ⟨hr, h.symm⟩
  · rw [if_neg hr] at h
    refine .inr ⟨by simpa using hr, ?_⟩
    by_cases hl : s.seqLegal = true
    case neg => simp [hl] at h
    refine ⟨hl, ?_⟩
    rw [if_pos hl] at h
    cases hp : s.ph.operation with
    | some i => rw [hp] at h; exact .inl ⟨i, rfl, h⟩
    | none =>
      have idle : s.ph = .idle := by cases hq : s.ph <;> simp_all [Phase.operation]
      rw [hp] at h
      simp only [State.fetchCommand] at h
      by_cases hv : s.sample.inp.cmdValid = true
      case neg =>
        simp only [hv] at h
        exact .inr (.inr ⟨idle, by simpa using h.symm⟩)
      · simp only [hv, if_true, decode, decodeHostCmd] at h
        by_cases h1 : s.sample.inp.cmdOp = 1#2
        · simp only [h1, if_true] at h
          exact .inr (.inl ⟨idle, hv, .inl ⟨h1, h⟩⟩)
        · by_cases h2 : s.sample.inp.cmdOp = 2#2
          · simp only [h2] at h
            exact .inr (.inl ⟨idle, hv, .inr ⟨h2, h⟩⟩)
          · simp only [h1, h2, if_false] at h
            exact .inr (.inr ⟨idle, by simpa using h.symm⟩)

end Sys2Proof.Machine
end

