-- ==== Sys2Proof/Laws/Phases.lean ====
section
/-! SUPPORT. What a step of a phase can do, said once: the cases of a tick of a wait (spec/70_reset_and_hazards.md R250), of the
operation that `PH` names (spec/45_poll_cycle.md R171), and of a read port (spec/20_memory.md R41). -/

namespace Sys2Proof.Machine

/-- A tick of a wait: the answer on the port is taken; or the timer runs out; or it counts down (R250, R208 b). -/
theorem State.waitTick_cases (s : State) :
    (s.inp.drvDone = true ∧ s.waitTick = s.answerStep (.done s.inp.drvStatus s.inp.drvRdata)) ∨
    (s.inp.drvDone = false ∧ s.tmr ≤ 1 ∧ s.waitTick = { s with tmr := 0 }.abort .busTimeoutError) ∨
    (s.inp.drvDone = false ∧ 2 ≤ s.tmr ∧ s.waitTick = { s with tmr := s.tmr - 1 }) := by
  cases hd : s.inp.drvDone
  · by_cases h : s.tmr ≤ 1
    · exact .inr (.inl ⟨rfl, h, by simp [State.waitTick, hd, show s.tmr - 1 = 0 by omega]; rfl⟩)
    · exact .inr (.inr ⟨rfl, by omega, by simp [State.waitTick, hd, show s.tmr - 1 ≠ 0 by omega]⟩)
  · exact .inl ⟨rfl, by simp [State.waitTick, hd]⟩

/-- A step of a running phase in a legal state is one tick of its wait, or one of the four steps without a wait (R171). -/
theorem phase_cases {s t : State} {i : Instr} (hl : s.seqLegal = true) (ho : s.ph.operation = some i)
    (h : exec i s = .next t) :
    (s.tx ≠ .tOff ∧ s.ph.transacts = true ∧ t = s.waitTick) ∨
    (s.ph = .settle ∧ execPhSettle s = .next t) ∨ (s.ph = .decode ∧ execPhDecode s = .next t) ∨
    (s.ph = .sigchk ∧ execPhSigchk s = .next t) ∨ (s.ph = .commit ∧ execPhCommit s = .next t) := by
  cases hp : s.ph <;> rw [hp] at ho <;> cases ho
  case settle => exact .inr (.inl ⟨rfl, h⟩)
  case decode => exact .inr (.inr (.inl ⟨rfl, h⟩))
  case sigchk => exact .inr (.inr (.inr (.inl ⟨rfl, h⟩)))
  case commit => exact .inr (.inr (.inr (.inr ⟨rfl, h⟩)))
  all_goals
    have ht : s.tx ≠ .tOff := fun ht => by simp [State.seqLegal, hp, ht] at hl
    simp only [exec, execPhInit, execPhRequest, execPhFetch, State.transactionPhase, ht, hp, hl, if_false, if_true, ne_eq,
      not_true_eq_false, Host.Outcome.next.injEq] at h
    exact .inl ⟨ht, rfl, h.symm⟩

/-- The legal combinations depend on `PH`, `TX` and `IDX` only (R33). -/
theorem State.seqLegal_congr {s t : State} (hp : t.ph = s.ph) (hx : t.tx = s.tx) (hi : t.idx = s.idx) :
    t.seqLegal = s.seqLegal := by
  simp only [State.seqLegal, hp, hx, hi]

/-- A wait over the coming ticks changes the inputs, the timer and the one-tick outputs only (R94, R250). -/
theorem waitTicks_frame (n : Nat) (s : State) :
    let t := (waitTicks n s).2
    t.cfg = s.cfg ∧ t.slot = s.slot ∧ t.ph = s.ph ∧ t.tx = s.tx ∧ t.idx = s.idx ∧ t.raw = s.raw ∧ t.busOwn = s.busOwn ∧
    t.report = s.report ∧ t.calMax = s.calMax ∧ t.calMin = s.calMin ∧ t.ok = s.ok ∧ t.restartReq = s.restartReq ∧
    t.inited = s.inited ∧ t.trace = s.trace ∧ t.drvCmd = s.drvCmd ∧ t.latch = s.latch := by
  induction n generalizing s with
  | zero => simp [waitTicks]
  | succ n ih =>
    simp only [waitTicks]
    split
    · simp
    · split
      · simp
      · split
        · simp
        · simpa using ih { s.sample with tmr := n }

/-- Outside DECODE, SIGCHK and COMMIT no step's writes are under way. -/
theorem State.stepWrites_eq {s : State} (hd : s.ph ≠ .decode) (hg : s.ph ≠ .sigchk) (hc : s.ph ≠ .commit) :
    s.stepWrites = s := by
  cases hp : s.ph <;> simp_all [State.stepWrites]

/-- Outside DECODE, SIGCHK and COMMIT the read port shows the byte of the read map (R41). -/
theorem State.rdData_eq {s : State} (hd : s.ph ≠ .decode) (hg : s.ph ≠ .sigchk) (hc : s.ph ≠ .commit) :
    s.rdData = s.memRead s.inp.rdAddr := by
  rw [State.rdData, State.stepWrites_eq hd hg hc, ite_self]

/-- In any phase it shows the byte as it stands or as the running step writes it (R241, D31). -/
theorem State.rdData_cases (s : State) :
    s.rdData = s.memRead s.inp.rdAddr ∨ s.rdData = s.stepWrites.memRead s.inp.rdAddr := by
  unfold State.rdData
  split
  · exact .inr rfl
  · exact .inl rfl

/-- What a read of `RAW` can show while DECODE runs: the wire byte or the decoded one (R245, D31). -/
theorem State.rdData_decode {s : State} (hp : s.ph = .decode) (j : Fin 6) (ha : s.inp.rdAddr = 8#5 + BitVec.ofNat 5 j.val) :
    s.rdData = s.raw[j] ∨ s.rdData = decByte s.raw[j] := by
  have hw : s.stepWrites = { s with raw := decodeSix s.raw } := by simp only [State.stepWrites, hp]
  rcases s.rdData_cases with h | h <;> rw [h, ha]
  · left
    fin_cases j <;> rfl
  · right
    rw [hw]
    fin_cases j <;> rfl

end Sys2Proof.Machine
end

