-- ==== Sys2Proof/Laws/ReadMap.lean ====
section
/-! SUPPORT. The read map as a list of cells is in canonical form in every state (spec/20_memory.md R40; DESIGN CHOICE, log entry 23). -/

namespace Sys2Proof.Machine

/-- What a cell of the read map is. -/
theorem mem_readMap {s : State} {x : Host.Cell} (h : x ∈ s.readMap) :
    ∃ a : BitVec 5, x = (a.toNat, s.memRead a) ∧ s.memRead a ≠ 0x00#8 := by
  obtain ⟨a, _, ha⟩ := List.mem_filterMap.mp h
  by_cases hz : s.memRead a = 0x00#8
  · simp [hz] at ha
  · simp only [hz, if_false, Option.some.injEq] at ha
    exact ⟨a, ha.symm, hz⟩

/-- The read map is canonical. -/
theorem readMap_wf (s : State) : Memory.wf s.readMap := by
  refine ⟨?_, fun x hx => ?_⟩
  · have rising : readAddresses.Pairwise (fun a b => a.toNat < b.toNat) := by decide
    refine List.Pairwise.filterMap _ (fun a a' lt b hb b' hb' => ?_) rising
    split at hb
    · cases hb
    · split at hb'
      · cases hb'
      · cases hb; cases hb'; exact lt
  · obtain ⟨a, rfl, hz⟩ := mem_readMap hx
    exact hz

/-- The read map right after reset is canonical. -/
theorem reset_readMap_wf : Memory.wf State.reset.readMap := readMap_wf State.reset

end Sys2Proof.Machine
end

