-- ==== Sys2Proof/Tests/Slice0.lean ====
section
/-! SUPPORT. Small tests with results taken from the spec (the section is named at each), the WellFormed smoke test, and for every statement
with hypotheses a witness that meets them. -/

namespace Sys2Proof.Tests

open Sys2Proof Sys2Proof.Machine

/-! ## Helpers -/

/-- The default build with short waits. -/
def build : Config := { Config.default with timeout := 3, settle := 2 }

/-- The small machine right after reset. -/
def base : State := State.resetOf build

/-- The small machine in a build with triggers. -/
def trigBase : State := State.resetOf { build with hasTriggers := true }

/-- A tick in which nothing is presented. -/
def still : Inputs := ⟨false, false, 0#2, 0#5, false, 0#8, 0#8⟩

/-- A tick with a driver answer. -/
def ans (st rd : Byte) : Inputs := ⟨false, false, 0#2, 0#5, true, st, rd⟩

/-- A tick with a command. -/
def cmd (op : BitVec 2) : Inputs := ⟨false, true, op, 0#5, false, 0#8, 0#8⟩

/-- A tick with reset. -/
def rst : Inputs := ⟨true, false, 0#2, 0#5, false, 0#8, 0#8⟩

/-- A transaction in progress. -/
def waiting (p : Phase) (x : TxPos) (i : BitVec 3) : State :=
  { base with ph := p, tx := x, idx := i, tmr := 3, busOwn := true }

/-- The state of a phase without a transaction, with a sample in `RAW`. -/
def holding (p : Phase) (r : Vector Byte 6) : State := { base with ph := p, raw := r }

/-- What an outcome's next state gives, if it is one. -/
def get {α : Type} (f : State → α) : Result → Option α
  | .next s => some (f s)
  | .fault _ => none
  | .refused _ => none

/-- Why an outcome is a refusal, if it is one. -/
def why : Result → Option Refusal
  | .next _ => none
  | .fault _ => none
  | .refused r => some r

/-! ## WellFormed: the two checks refuse an ill-formed term, and encodings of such terms are refused by name (R70) -/

theorem test_illformed_dec : (Instr.dec 6#3).wellFormed = false := by decide
theorem test_illformed_field : (Instr.field 7#3).wellFormed = false := by decide

theorem test_illformed_words :
    decode (.dpop 0b00000110#8) = .error .indexDoesNotOccur ∧ decode (.dpop 0b00100111#8) = .error .indexDoesNotOccur :=
  ⟨rfl, rfl⟩

/-! ## Decoding: words written out from R60 to R63, R69, R70 and spec/95_test_vectors.md 3 -/

theorem test_decode_hostcmd :
    decode (.hostCmd 0b01#2) = .ok .init ∧ decode (.hostCmd 0b10#2) = .ok .poll ∧
      decode (.hostCmd 0b00#2) = .error .reservedHostCommand ∧ decode (.hostCmd 0b11#2) = .error .reservedHostCommand :=
  ⟨rfl, rfl, rfl, rfl⟩

theorem test_decode_drvcmd :
    decode (.drvCmd 0b00000000000#11) = .ok .start ∧ decode (.drvCmd 0b01001000000#11) = .ok (.write 0x40#8) ∧
      decode (.drvCmd 0b10000000000#11) = .ok (.read false) ∧ decode (.drvCmd 0b10100000000#11) = .ok (.read true) ∧
      decode (.drvCmd 0b11000000000#11) = .ok .stop ∧ decode (.drvCmd 0b01100000000#11) = .error .noDriverCommand :=
  ⟨rfl, rfl, rfl, rfl, rfl, rfl⟩

theorem test_decode_drvrsp :
    decode (.drvRsp 0b10101100001100110#17) = .ok (.wait 0x58#8 0x66#8) ∧
      decode (.drvRsp 0b00101100001100110#17) = .error .noAnswer :=
  ⟨rfl, rfl⟩

theorem test_decode_addrbyte :
    decode (.addrByte 0b10100100#8) = .ok (.send 0x52#7) ∧ decode (.addrByte 0b10100101#8) = .ok (.receive 0x52#7) ∧
      decode (.addrByte 0b11111110#8) = .ok (.send 0x7F#7) :=
  ⟨rfl, rfl, rfl⟩

theorem test_decode_phase :
    decode (.phase 0b0001#4) = .ok .phInit ∧ decode (.phase 0b0010#4) = .ok .phRequest ∧
      decode (.phase 0b0011#4) = .ok .phSettle ∧ decode (.phase 0b0100#4) = .ok .phFetch ∧
      decode (.phase 0b0101#4) = .ok .phDecode ∧ decode (.phase 0b0110#4) = .ok .phSigchk ∧
      decode (.phase 0b0111#4) = .ok .phCommit ∧ decode (.phase 0b1000#4) = .error .reservedPhase ∧
      decode (.phase 0b0000#4) = .error .idlePhase :=
  ⟨rfl, rfl, rfl, rfl, rfl, rfl, rfl, rfl, rfl⟩

theorem test_decode_dpop :
    decode (.dpop 0b00000101#8) = .ok (.dec 5#3) ∧ decode (.dpop 0b00100100#8) = .ok (.field 4#3) ∧
      decode (.dpop 0b01000011#8) = .ok (.center 3#2) ∧ decode (.dpop 0b01100010#8) = .ok (.cal 2#2) ∧
      decode (.dpop 0b10000001#8) = .ok (.trig 1#1) ∧ decode (.dpop 0b10111100#8) = .ok (.setbtn 14#4 false) ∧
      decode (.dpop 0b11000000#8) = .ok .pack ∧ decode (.dpop 0b11100000#8) = .error .reservedOperation :=
  ⟨rfl, rfl, rfl, rfl, rfl, rfl, rfl, rfl⟩

/-- One row per operation of the table: the rows of one format do not overlap (spec/opcode_table.json). -/
def tableRows : List OpcodeRow :=
  [Instr.init, .poll, .start, .write 0, .read true, .stop, .wait 0 0, .send 0, .receive 0, .phInit, .phRequest].map
    Instr.row ++
  [Instr.phSettle, .phFetch, .phDecode, .phSigchk, .phCommit, .dec 0, .field 0, .center 0, .cal 0, .trig 0,
    .setbtn 0 true, .pack].map Instr.row

theorem test_rows_disjoint :
    tableRows.Pairwise (fun x y => x.format ≠ y.format ∨ x.pattern &&& y.mask &&& x.mask ≠ y.pattern &&& x.mask) := by
  decide

/-! ## Host commands (95, P1, P4, P5) -/

theorem test_init_accepted :
    get (fun t => (t.ph, t.tx, t.drvCmd, t.busOwn)) (exec .init base) = some (.init, .tStart, 0x000#11, true) := by decide

theorem test_poll_refused_after_failure :
    get (fun t => t) (exec .poll { base with restartReq := true }) = some { base with restartReq := true } := by decide

/-! ## Driver commands (95, 4.7) and the answer to a wait -/

theorem test_write_address : get (fun t => (t.drvCmd, t.tmr)) (exec (.write 0xA4#8) base) = some (0x2A4#11, 3) := by decide

theorem test_stop : get (fun t => (t.drvCmd, t.busOwn)) (exec .stop { base with busOwn := true }) = some (0x600#11, false) := by
  decide

theorem test_repeated_start_accepted :
    get (fun t => (t.tx, t.drvCmd)) (exec (.wait 0x10#8 0#8) (waiting .fetch .tStart 0#3)) = some (.tAddr, 0x2A5#11) := by
  decide

/-- 95, 3.4: a mismatch at the second data byte of INIT leaves `ERR` 0xC5 and `SEQIDX` 0x10. -/
theorem test_mismatch_record :
    get (fun t => (t.memRead 0x18#5, t.memRead 0x19#5, t.memRead 0x1A#5, t.memRead 0x1B#5))
      (exec (.wait 0x30#8 0#8) (waiting .init .tData 1#3)) = some (0x00#8, 0xC5#8, 0x00#8, 0x10#8) := by
  decide

/-! ## Transactions (95, 4.8) -/

theorem test_send_request :
    get (fun t => (t.trace, t.busOwn, t.latch.result))
      (exec (.send 0x52#7) { base with ph := .request, inputs := [ans 0x08 0, still, ans 0x18 0, ans 0x28 0] }) =
      some ([0x000#11, 0x2A4#11, 0x200#11, 0x600#11], false, true) := by
  decide

theorem test_send_timeout :
    get (fun t => (t.trace, t.latch.result, t.errClass))
      (exec (.send 0x52#7) { base with ph := .request, inputs := [still, still, still] }) =
      some ([0x000#11, 0x600#11], false, .busTimeoutError) := by
  decide

theorem test_receive_short :
    get (fun t => (t.trace, t.raw, t.latch.result))
      (exec (.receive 0x52#7) { base with
        inputs := [ans 0x08 0, ans 0x40 0, ans 0x50 0x11, ans 0x50 0x22, ans 0x58 0x33] }) =
      some ([0x000#11, 0x2A5#11, 0x500#11, 0x500#11, 0x500#11, 0x600#11], #v[0x11#8, 0x22#8, 0#8, 0#8, 0#8, 0#8], false) := by
  decide

theorem test_receive_six :
    get (fun t => (t.raw, t.drvCmd, t.latch.result))
      (exec (.receive 0x52#7) { base with
        inputs := [ans 0x08 0, ans 0x40 0, ans 0x50 0x11, ans 0x50 0x22, ans 0x50 0x33, ans 0x50 0x44, ans 0x50 0x55,
          ans 0x58 0x66] }) =
      some (#v[0x11#8, 0x22#8, 0x33#8, 0x44#8, 0x55#8, 0x66#8], 0x600#11, true) := by
  decide

/-! ## Phases (95, 3.4, 4.10, 5, P1, P4) -/

/-- 95, 3.4: a timeout at byte 3 of FETCH leaves `ERR` 0xD2 and `SEQIDX` 0x30. -/
theorem test_fetch_timeout_record :
    get (fun t => (t.memRead 0x19#5, t.memRead 0x1B#5)) (exec .phFetch { waiting .fetch .tData 3#3 with tmr := 1 }) =
      some (0xD2#8, 0x30#8) := by
  decide

/-- 95, 4.10: `Done` in the last tick of the bound wins. -/
theorem test_done_in_last_tick :
    get (fun t => (t.ph, t.tx)) (exec .phRequest { waiting .request .tStart 0#3 with tmr := 1, inp := ans 0x08 0 }) =
      some (.request, .tAddr) := by
  decide

theorem test_init_phase_completes :
    get (fun t => (t.ok, t.inited, t.done, t.memRead 0x18#5)) (exec .phInit { waiting .init .tData 1#3 with inp := ans 0x28 0 }) =
      some (true, true, true, 0x0A#8) := by
  decide

/-- 95, 4.10: with one tick left SETTLE issues the START of the fetch. -/
theorem test_settle_last_tick :
    get (fun t => (t.ph, t.tx, t.drvCmd)) (exec .phSettle { base with ph := .settle, tmr := 1 }) =
      some (.fetch, .tStart, 0x000#11) := by
  decide

theorem test_decode_phase_p1 :
    get (fun t => (t.raw, t.ph)) (exec .phDecode (holding .decode #v[0x9E#8, 0x1E#8, 0xEE#8, 0xFE#8, 0xFF#8, 0xFF#8])) =
      some (#v[0xA0#8, 0x20#8, 0x10#8, 0x00#8, 0xFF#8, 0xFF#8], .sigchk) := by
  decide

/-- 95, 3.4: after a device failure `ERR` is 0x1B. -/
theorem test_sigchk_failure :
    get (fun t => (t.restartReq, t.ok, t.ph, t.memRead 0x19#5))
      (exec .phSigchk (holding .sigchk #v[0xFF#8, 0xFF#8, 0xFF#8, 0xFF#8, 0xFF#8, 0xFF#8])) =
      some (true, false, .idle, 0x1B#8) := by
  decide

theorem test_sigchk_near_signature :
    get (fun t => (t.restartReq, t.ph)) (exec .phSigchk (holding .sigchk #v[0xFF#8, 0xFF#8, 0xFF#8, 0xFF#8, 0xFF#8, 0xFE#8])) =
      some (false, .commit) := by
  decide

/-- 95, 5b: the corrected neutral vector. -/
theorem test_commit_neutral :
    get (fun t => (t.reportBytes, t.ok)) (exec .phCommit (holding .commit #v[0xA0#8, 0x20#8, 0x10#8, 0x00#8, 0xFF#8, 0xFF#8])) =
      some ([0x80#8, 0x7C#8, 0x80#8, 0x7C#8, 0x00#8, 0x00#8], true) := by
  decide

/-- 95, P7: triggers, and bounds that widen. -/
theorem test_commit_triggers :
    get (fun t => (t.reportBytes, t.calMax, t.calMin))
      (exec .phCommit { trigBase with ph := .commit, raw := #v[0xC5#8, 0x7B#8, 0xE3#8, 0x9C#8, 0x5A#8, 0xA5#8] }) =
      some ([0x00#8, 0x00#8, 0xFF#8, 0xFF#8, 0xE0#8, 0xE0#8, 0x52#8, 0x2D#8], #v[32#8, 32#8, 88#8, 103#8],
        #v[-108#8, -109#8, -32#8, -32#8]) := by
  decide

/-! ## Datapath (95, 4.1 to 4.6) -/

theorem test_dec_wraps :
    get (fun t => t.raw[4]) (exec (.dec 4#3) { base with raw := #v[0#8, 0#8, 0#8, 0#8, 0xE8#8, 0#8] }) = some 0x16#8 := by decide

theorem test_dec_table_corners :
    decByte 0x00#8 = 0x2E#8 ∧ decByte 0xFE#8 = 0x00#8 ∧ decByte 0xFF#8 = 0xFF#8 ∧ encByte 0xA0#8 = 0x9E#8 := by decide

theorem test_field_third_axis :
    get (fun t => t.latch.field) (exec (.field 2#3) { base with raw := #v[0xC5#8, 0x7B#8, 0xE3#8, 0x9C#8, 0#8, 0#8] }) =
      some 0xD8#8 := by
  decide

theorem test_field_left_trigger :
    get (fun t => t.latch.field) (exec (.field 4#3) { trigBase with raw := #v[0xC5#8, 0x7B#8, 0xE3#8, 0x9C#8, 0#8, 0#8] }) =
      some 0xE0#8 := by
  decide

theorem test_center_inverted :
    get (fun t => t.latch.centred) (exec (.center 1#2) { base with latch := { base.latch with field := 0xFC#8 } }) =
      some (-125#8) := by
  decide

theorem test_cal_tie :
    get (fun t => (t.latch.out, t.calMax[0]))
      (exec (.cal 0#2) { base with latch := { base.latch with centred := 16#8 } }) = some (192#8, 32#8) := by
  decide

theorem test_cal_lowest :
    get (fun t => (t.latch.out, t.calMin[3]))
      (exec (.cal 3#2) { base with latch := { base.latch with centred := -128#8 } }) = some (0#8, -128#8) := by
  decide

theorem test_cal_table_rows :
    calByte 3#8 (-3#8) (-1#8) = 85#8 ∧ calByte 3#8 (-3#8) (-2#8) = 43#8 ∧ calByte 127#8 (-128#8) (-127#8) = 1#8 ∧
      calByte 100#8 (-100#8) 99#8 = 254#8 ∧ calByte 127#8 (-32#8) 100#8 = 228#8 := by
  decide

theorem test_trig_right :
    get (fun t => t.report.trg) (exec (.trig 1#1) { trigBase with raw := #v[0#8, 0#8, 0x60#8, 0xFF#8, 0#8, 0#8] }) =
      some #v[0x00#8, 0xF8#8] := by
  decide

theorem test_trig_absent : why (exec (.trig 1#1) base) = some .noTriggers := by decide

theorem test_setbtn_nine : get (fun t => t.report.btn) (exec (.setbtn 9#4 true) base) = some #v[0x00#8, 0x02#8] := by decide

theorem test_setbtn_clear_three :
    get (fun t => t.report.btn)
      (exec (.setbtn 3#4 false) { base with report := { base.report with btn := #v[0xFF#8, 0x7F#8] } }) =
      some #v[0xF7#8, 0x7F#8] := by
  decide

theorem test_pack_all_pressed :
    get (fun t => t.report.btn) (exec .pack base) = some #v[0xFF#8, 0x7F#8] := by decide

theorem test_pack_mixed :
    get (fun t => t.report.btn) (exec .pack { base with raw := #v[0#8, 0#8, 0#8, 0#8, 0x5A#8, 0xA5#8] }) =
      some #v[0x52#8, 0x2D#8] := by
  decide

/-! ## The read map after reset (95, P4), the divider (95, 4.9), and steps -/

theorem test_reset_map :
    readAddresses.map State.reset.memRead =
      [0x80#8, 0x80#8, 0x80#8, 0x80#8, 0x00#8, 0x00#8, 0x00#8, 0x00#8] ++
      [0x00#8, 0x00#8, 0x00#8, 0x00#8, 0x00#8, 0x00#8, 0x00#8, 0x00#8] ++
      [0x20#8, 0x20#8, 0x20#8, 0x20#8, 0xE0#8, 0xE0#8, 0xE0#8, 0xE0#8] ++
      [0x00#8, 0x00#8, 0x00#8, 0x00#8, 0x06#8, 0x52#8, 0x34#8, 0x00#8] := by
  decide

theorem test_divider :
    Config.divider { build with fClk := 20000000, fBus := 1000 } = some (156#8, 3#2) ∧
      Config.divider { build with fClk := 1500000, fBus := 100000 } = none ∧
      Config.divider { build with fClk := 20000000, fBus := 100 } = none := by
  decide

/-- P8: reset in mid-transaction issues no STOP. -/
theorem test_step_reset_in_fetch :
    get (fun t => (t.ph, t.busOwn, t.done, t.trace)) (step { waiting .fetch .tData 2#3 with inputs := [rst] }) =
      some (.idle, false, false, []) := by
  decide

theorem test_step_command_ignored_while_busy :
    get (fun t => (t.ph, t.tx, t.tmr)) (step { waiting .request .tAddr 0#3 with inputs := [cmd 0b01#2] }) =
      some (.request, .tAddr, 2) := by
  decide

theorem test_step_runs_table_word :
    get (fun t => t.drvCmd) (step (State.reset.withFetchWord 16 0x2A4)) = some 0x2A4#11 ∧
      get (fun t => t.ph) (step (State.reset.withFetchWord 8 0x2)) = some .request ∧
      get (fun t => t.report.btn) (step (State.reset.withFetchWord 8 0xC0)) = some #v[0xFF#8, 0x7F#8] := by
  decide

/-! ## Witnesses: for every statement with hypotheses, a concrete case that meets them together -/

theorem base_inv : base.Inv := by
  refine ⟨by decide, rfl, by decide, ?_, ?_, ?_, ?_, ?_, ?_, ?_⟩
  · unfold State.boundsEncloseSeed; decide
  · unfold State.buttonFifteenClear; decide
  · unfold State.restartOnlyIdle; decide
  · unfold State.busOwnedExactly; decide
  · unfold State.timerBounded; decide
  · unfold State.recordClearWhileBusy; decide
  · decide

/-- A busy state that meets the invariant, with the inputs of the coming ticks. -/
theorem waiting_inv (l : List Inputs) : ({ waiting .request .tAddr 0#3 with inputs := l } : State).Inv := by
  refine ⟨by show build.wf = true; decide, rfl, rfl, ?_, ?_, ?_, ?_, ?_, ?_, ?_⟩
  · exact base_inv.2.2.2.1
  · exact base_inv.2.2.2.2.1
  · intro h; cases h
  · exact ⟨fun _ => rfl, fun _ h => by cases h⟩
  · exact ⟨fun _ => ⟨by show 1 ≤ 3; omega, by show 3 ≤ 3; omega⟩, fun h => by cases h⟩
  · exact fun _ => ⟨rfl, rfl, rfl, rfl⟩
  · intro h; cases h

/-- A standing restart request that meets the invariant. -/
theorem restart_inv (l : List Inputs) : ({ base with restartReq := true, inputs := l } : State).Inv := by
  refine ⟨by show build.wf = true; decide, rfl, rfl, ?_, ?_, ?_, ?_, ?_, ?_, ?_⟩
  · exact base_inv.2.2.2.1
  · exact base_inv.2.2.2.2.1
  · intro _; rfl
  · exact ⟨fun h => absurd rfl h, fun _ _ => rfl⟩
  · exact ⟨fun h => absurd rfl h, fun h => by cases h⟩
  · exact fun h => absurd rfl h
  · intro h; cases h

theorem witness_DecodeOfEncode : (Instr.dec 5#3).wellFormed = true ∧ (Instr.field 5#3).wellFormed = true := by decide

theorem witness_EncodeOfDecode : decode (.addrByte 0xA4#8) = .ok (.send 0x52#7) := rfl

theorem witness_StepRunsPlacedWord :
    let s : State := { base with slot := some (.dpop 0xC0#8) }
    s.cfg.wf = true ∧ s.slot = some (.dpop 0xC0#8) ∧ decode (.dpop 0xC0#8) = .ok .pack :=
  ⟨by decide, rfl, rfl⟩

theorem witness_StepRunsPhase :
    let s : State := { waiting .fetch .tData 5#3 with inputs := [ans 0x58 0x66] }
    s.cfg.wf = true ∧ s.slot = none ∧ s.seqLegal = true ∧ s.sample.inp.rst = false ∧
      decode (.phase s.ph.code) = .ok .phFetch :=
  ⟨by decide, rfl, rfl, rfl, rfl⟩

theorem witness_StepRunsHostCommand :
    let s : State := { base with inputs := [cmd 0b01#2] }
    let u : State := { base with inputs := [cmd 0b11#2] }
    (s.cfg.wf = true ∧ s.slot = none ∧ s.seqLegal = true ∧ s.sample.inp.rst = false ∧ s.ph = .idle ∧
      s.sample.inp.cmdValid = true ∧ decode (.hostCmd s.sample.inp.cmdOp) = .ok .init) ∧
    (u.cfg.wf = true ∧ u.slot = none ∧ u.seqLegal = true ∧ u.sample.inp.rst = false ∧ u.ph = .idle ∧
      u.sample.inp.cmdOp = 3#2) :=
  ⟨⟨by decide, rfl, rfl, rfl, rfl, rfl, rfl⟩, by decide, rfl, rfl, rfl, rfl, rfl⟩

theorem witness_ResetTick :
    let s : State := { waiting .fetch .tData 2#3 with inputs := [rst] }
    s.cfg.wf = true ∧ s.slot = none ∧ s.sample.inp.rst = true :=
  ⟨by decide, rfl, rfl⟩

theorem witness_ResetMeetsInvariant : build.wf = true := by decide

/-- StepKeepsInvariant, StepAlwaysAnswers, BusyTickProgresses, CommandsComplete (first clause). -/
theorem witness_BusyTick :
    let s : State := { waiting .request .tAddr 0#3 with inputs := [still] }
    s.Inv ∧ s.ph ≠ .idle ∧ ∃ t, step s = .next t :=
  ⟨waiting_inv _, (by decide), ⟨_, rfl⟩⟩

theorem witness_CommandsComplete_poll : base.Inv ∧ base.cmdReady = true ∧ ∃ t, exec .poll base = .next t :=
  ⟨base_inv, rfl, ⟨_, rfl⟩⟩

theorem witness_RestartRequestHoldsEverything :
    let s : State := { base with restartReq := true, inputs := [cmd 0b10#2] }
    s.Inv ∧ s.restartReq = true ∧ s.sample.inp.rst = false :=
  ⟨restart_inv _, rfl, rfl⟩

theorem witness_CommandIgnoredWhenNotReady :
    let s : State := { waiting .request .tAddr 0#3 with inputs := [still] }
    s.slot = none ∧ s.cmdReady = false ∧ s.inputs = still :: [] ∧ ∃ t, step s = .next t :=
  ⟨rfl, rfl, rfl, ⟨_, rfl⟩⟩

theorem witness_ReadHasNoSideEffect :
    let s : State := { base with inputs := [cmd 0b10#2] }
    s.slot = none ∧ s.inputs = cmd 0b10#2 :: [] ∧ ∃ t, step s = .next t :=
  ⟨rfl, rfl, ⟨_, rfl⟩⟩

theorem witness_DiagnosticsFeedNothing :
    let s : State := { base with inputs := [cmd 0b10#2] }
    let u : State := { base with inputs := [cmd 0b10#2], errClass := .busPhaseError, inited := true }
    s.slot = none ∧ s.withoutDiagnostics = u.withoutDiagnostics ∧ s ≠ u ∧ ∃ t, step s = .next t :=
  ⟨rfl, rfl, (by decide), ⟨_, rfl⟩⟩

/-- BuildIsConstant, BoundsOnlyWiden, RawWrittenByteByByte, FlagsHaveOneWriter, DonePulsesAtCompletion, OneDriverWordPerTick: a tick
without reset that answers, and in it a byte of `RAW` changes. -/
theorem witness_Tick :
    let s : State := { waiting .fetch .tData 5#3 with inputs := [ans 0x58 0x66] }
    s.slot = none ∧ s.sample.inp.rst = false ∧ get (fun t => t.raw[5] ≠ s.raw[5] ∧ t.drvValid = true) (step s) = some True ∧
      s.ph = .fetch :=
  ⟨rfl, rfl, (by
    show some (_ ∧ _) = some True
    congr 1
    exact eq_true (by decide)), rfl⟩

/-- FlagsHaveOneWriter and DonePulsesAtCompletion: the ticks in which `RESTART_REQ`, `INITED` and `done` rise. -/
theorem witness_FlagsRise :
    get (fun t => (t.restartReq, t.done))
      (step { holding .sigchk #v[0xFF#8, 0xFF#8, 0xFF#8, 0xFF#8, 0xFF#8, 0xFF#8] with inputs := [still] }) =
      some (true, true) ∧
    get (fun t => (t.inited, t.done)) (step { waiting .init .tData 1#3 with inputs := [ans 0x28 0] }) = some (true, true) := by
  decide

theorem witness_ReportMovesAtCommitOnly :
    let s : State := { waiting .request .tAddr 0#3 with inputs := [still] }
    s.slot = none ∧ (∃ t, core.run 1 s = .next t) ∧
      ∀ m u, m < 1 → core.run m s = .next u → u.ph ≠ .commit ∧ u.sample.inp.rst = false := by
  refine ⟨rfl, ⟨_, rfl⟩, fun m u hm hu => ?_⟩
  obtain rfl : m = 0 := by omega
  cases hu
  exact ⟨by decide, rfl⟩

theorem witness_SmallStepsAgreeWithWhole :
    Phase.transacts .fetch = true ∧ base.cfg.wf = true ∧ base.slot = none := by decide

theorem witness_CommandsAccepted : base.ph = .idle ∧ base.restartReq = false := by decide

/-- MismatchAborts, at the last byte of a fetch; and the two clauses of StatusClasses that meet at index 5. -/
theorem witness_MismatchAborts :
    let s := waiting .fetch .tData 5#3
    s.seqLegal = true ∧ s.tx ≠ .tOff ∧ 0x50#8 ∉ expectedStatus s.cfg s.tx s.ph.dir s.idx.toNat ∧
      0x50#8 ∈ expectedStatus s.cfg .tData true 4 ∧ 0x58#8 ∈ expectedStatus s.cfg .tData true 5 := by
  decide

theorem witness_StartWaitPasses :
    let s := waiting .request .tStart 0#3
    s.seqLegal = true ∧ s.tx = .tStart ∧ (0x10#8 = s.cfg.stStart ∨ 0x10#8 = s.cfg.stRstart) := by
  decide

theorem witness_AddressWaitPasses :
    let s := waiting .fetch .tAddr 0#3
    s.seqLegal = true ∧ s.tx = .tAddr ∧ 0x40#8 = (if s.ph = .fetch then s.cfg.stSlarAck else s.cfg.stSlawAck) := by
  decide

theorem witness_SendDataWaitPasses :
    (waiting .init .tData 0#3).seqLegal = true ∧ (waiting .init .tData 1#3).seqLegal = true ∧
      (waiting .request .tData 0#3).seqLegal = true := by
  decide

theorem witness_ReceiveDataWaitPasses :
    (waiting .fetch .tData 0#3).seqLegal = true ∧ (waiting .fetch .tData 4#3).seqLegal = true ∧
      (waiting .fetch .tData 5#3).seqLegal = true ∧ (waiting .fetch .tData 5#3).idx.toNat = 5 := by
  decide

theorem witness_SendSucceeds :
    let s : State := { base with ph := .init, inputs := ans 0x08 0 :: ans 0x18 0 :: ([ans 0x28 0, ans 0x28 0] ++ []) }
    1 ≤ s.cfg.timeout ∧ s.inputs = ans 0x08 0 :: ans 0x18 0 :: ([ans 0x28 0, ans 0x28 0] ++ []) ∧
      [ans 0x28 0, ans 0x28 0].length = s.ph.sendBytes.length ∧
      (∀ z ∈ ans 0x08 0 :: ans 0x18 0 :: [ans 0x28 0, ans 0x28 0], z.rst = false ∧ z.drvDone = true) ∧
      ((ans 0x08 0).drvStatus = s.cfg.stStart ∨ (ans 0x08 0).drvStatus = s.cfg.stRstart) ∧
      (ans 0x18 0).drvStatus = s.cfg.stSlawAck ∧
      ∀ z ∈ [ans 0x28 0, ans 0x28 0], z.drvStatus = s.cfg.stTxdataAck := by
  decide

/-- The six answers of a fetch. -/
def sixBytes : Vector Inputs 6 :=
  #v[ans 0x50 1, ans 0x50 2, ans 0x50 3, ans 0x50 4, ans 0x50 5, ans 0x58 6]

theorem witness_ReceiveSucceeds :
    let s : State := { base with inputs := ans 0x08 0 :: ans 0x40 0 :: (sixBytes.toList ++ []) }
    1 ≤ s.cfg.timeout ∧ s.inputs = ans 0x08 0 :: ans 0x40 0 :: (sixBytes.toList ++ []) ∧
      (∀ z ∈ ans 0x08 0 :: ans 0x40 0 :: sixBytes.toList, z.rst = false ∧ z.drvDone = true) ∧
      ((ans 0x08 0).drvStatus = s.cfg.stStart ∨ (ans 0x08 0).drvStatus = s.cfg.stRstart) ∧
      (ans 0x40 0).drvStatus = s.cfg.stSlarAck ∧
      ∀ j : Fin 6, sixBytes[j].drvStatus = if j.val < 5 then s.cfg.stRxdataAck else s.cfg.stRxdataNack := by
  decide

theorem witness_FailedTransactionReleasesBus :
    (∃ t, sendAll 0x52#7 [0x00#8] { base with ph := .request, inputs := [ans 0x08 0, ans 0x20 0] } = (.returned false, t)) ∧
      ∃ t, receiveAll 0x52#7 { base with inputs := [ans 0x08 0, ans 0x48 0] } = (.returned false, t) :=
  ⟨⟨_, rfl⟩, ⟨_, rfl⟩⟩

theorem witness_TransactionPhasesBegin : base.tx = .tOff := rfl

theorem witness_TransactionPhaseTick :
    let s := waiting .request .tData 0#3
    s.seqLegal = true ∧ s.tx ≠ .tOff ∧ decode (.phase s.ph.code) = .ok .phRequest ∧ s.inp.drvDone = false ∧ 2 ≤ s.tmr ∧
      ({ s with tmr := 1 } : State).seqLegal = true ∧ ({ s with inp := ans 0x28 0 } : State).inp.drvDone = true :=
  ⟨rfl, (by decide), rfl, rfl, (by decide), rfl, rfl⟩

theorem witness_SettleCountsThenFetches :
    2 ≤ ({ base with tmr := 2 } : State).tmr ∧ ({ base with tmr := 1 } : State).tmr ≤ 1 ∧ base.tmr ≤ 1 := by decide

theorem witness_SigchkDecides :
    (∀ j : Fin 6, (holding .sigchk #v[0xFF#8, 0xFF#8, 0xFF#8, 0xFF#8, 0xFF#8, 0xFF#8]).raw[j] = 0xFF#8) ∧
      ∃ j : Fin 6, base.raw[j] ≠ 0xFF#8 := by
  decide

/-- CommitWritesReport, CommitIsTheDatapath, CalRescales. -/
theorem witness_Commit :
    (∀ a : Fin 4, base.calMin[a].toInt < 0) ∧ trigBase.cfg.hasTriggers = true ∧ ∃ u, exec .phCommit base = .next u :=
  ⟨(by decide), rfl, ⟨_, rfl⟩⟩

theorem witness_FieldAssembles :
    ((3#3).toNat < 4) ∧ ((5#3).toNat < 6 ∧ trigBase.cfg.hasTriggers = true) := by decide

/-- CalRange and CalMonotone, at the ends of the range. -/
theorem witness_Cal :
    (-128#8).toInt < 0 ∧ 0 < (127#8).toInt ∧ (127#8).toInt ≤ (127#8).toInt ∧ (-128#8).toInt ≤ (-128#8).toInt ∧
      (-128#8).toInt < (127#8).toInt := by
  decide

theorem witness_RoundHazIsNearest : (0 : Int) < 2 ∧ 2 * (roundHaz 127 2 * 2 - 127).natAbs = (2 : Int).natAbs := by decide

theorem witness_TrigWritesTrigger : trigBase.cfg.hasTriggers = true := rfl

theorem witness_AbsentOperationsRefused : base.cfg.hasTriggers = false ∧ 6 ≤ (6#3).toNat := by decide

theorem witness_DecDecodesOneByte : (5#3).toNat < 6 := by decide

/-- ReadMapFrames: the operations it names answer on these states. -/
theorem witness_ReadMapFrames :
    (∃ t, exec (.field 0#3) trigBase = .next t) ∧ (∃ t, exec (.cal 1#2) trigBase = .next t) ∧
      (∃ t, exec (.trig 1#1) trigBase = .next t) ∧ (∃ t, exec (.dec 5#3) trigBase = .next t) ∧
      (∃ t, exec (.setbtn 15#4 true) trigBase = .next t) ∧ ∃ t, exec .pack trigBase = .next t :=
  ⟨⟨_, rfl⟩, ⟨_, rfl⟩, ⟨_, rfl⟩, ⟨_, rfl⟩, ⟨_, rfl⟩, ⟨_, rfl⟩⟩

/-- AnswerWithoutWait is the reading of DEDUCED, log entry 15: an answer in IDLE changes nothing. -/
theorem test_wait_idle : get (fun t => t) (exec (.wait 0x08#8 0#8) base) = some base := by decide

end Sys2Proof.Tests
end

