-- ==== Sys2Proof/Proofs/RoundHaz.lean ====
section
/-! `round_haz` (R34, R146): its value on non-negative dividends, its symmetry, and that it is the nearest integer. -/

namespace Sys2Proof.Machine

/-- On a non-negative dividend the sign factor of R34 drops out (at 0 the quotient is 0 as well). -/
theorem roundHaz_of_nonneg {p q : Int} (hp : 0 ≤ p) (hq : 0 < q) : roundHaz p q = (2 * p + q) / (2 * q) := by
  obtain rfl | hpos := hp.eq_or_lt
  · have hzero : q / (2 * q) = 0 := Int.ediv_eq_zero_of_lt hq.le (by omega)
    simp [roundHaz, hzero]
  · simp [roundHaz, Int.sign_eq_one_of_pos hpos, abs_of_pos hpos]

/-- Halves go away from zero on both sides (R146), so the rounding is odd in the dividend. -/
theorem roundHaz_neg (p q : Int) : roundHaz (-p) q = -roundHaz p q := by
  simp [roundHaz]

/-- The half-open interval of width `2 * q` that fixes the rounded multiple of `q`: its closed upper end is the tie. -/
theorem roundHaz_mul_bounds {p q : Int} (hp : 0 ≤ p) (hq : 0 < q) :
    2 * p - q < 2 * (roundHaz p q * q) ∧ 2 * (roundHaz p q * q) ≤ 2 * p + q := by
  have hle : (2 * p + q) / (2 * q) * (2 * q) ≤ 2 * p + q := Int.ediv_mul_le _ (by omega)
  have hlt : 2 * p + q < ((2 * p + q) / (2 * q) + 1) * (2 * q) := Int.lt_ediv_add_one_mul_self _ (by omega)
  rw [← roundHaz_of_nonneg hp hq, Int.mul_left_comm] at hle hlt
  rw [Int.add_mul] at hlt
  omega

/-- Settles O51: the interval of `roundHaz_mul_bounds` for `0 ≤ p`, and its mirror image for `p ≤ 0`. -/
theorem roundHazIsNearest : Obligations.RoundHazIsNearest := by
  intro p q hq
  obtain hp | hp := Int.le_total 0 p
  · have hbounds := roundHaz_mul_bounds hp hq
    omega
  · have hbounds := roundHaz_mul_bounds (Int.neg_nonneg_of_nonpos hp) hq
    rw [roundHaz_neg, Int.neg_mul] at hbounds
    omega

end Sys2Proof.Machine
end

