-- ==== Sys2Proof/Proofs/Tick.lean ====
section
/-! The cases of a tick as one relation, `Tick`, so that a claim about every step is a case analysis over it. -/

namespace Sys2Proof.Machine

/-! ### The sequencer's combinations (R33, R64) -/

theorem Phase.transacts_iff (p : Phase) : p.transacts = true ↔ p = .init ∨ p = .request ∨ p = .fetch := by
  cases p <;> decide

theorem Phase.ne_of_transacts {p q : Phase} (hp : p.transacts = true) (hq : q.transacts = false) : p ≠ q := by
  rintro rfl
  simp [hp] at hq

/-- A transaction may stand at byte 0 in each of its positions. -/
theorem State.seqLegal_at_zero {s : State} {x : TxPos} (htr : s.ph.transacts = true) (hx : x ≠ .tOff) :
    ({ s with tx := x, idx := 0#3 } : State).seqLegal = true := by
  rcases (Phase.transacts_iff _).mp htr with hp | hp | hp <;> cases x <;> simp_all [State.seqLegal]

theorem State.idx_of_tStart {s : State} (hl : s.seqLegal = true) (hx : s.tx = .tStart) : s.idx = 0#3 := by
  cases hp : s.ph <;> simp_all [State.seqLegal]

theorem State.seqLegal_iff_of_quiet {s : State} (hq : s.ph.transacts = false) :
    s.seqLegal = true ↔ s.tx = .tOff ∧ s.idx = 0#3 := by
  cases hp : s.ph <;> cases hx : s.tx <;> simp_all [State.seqLegal, Phase.transacts]

/-! ### The relation -/

/-- What a tick of the hardware without reset can make of the sampled state `s`, with the guard of each case: a command
(R170), a tick of a wait (R95, R114 to R117, R204), and the steps without a wait (R175 to R178, R250). The byte that a
WRITE carries and the acknowledge bit of a READ are left open. -/
inductive Tick (s : State) : State → Prop
  | quiet (hidle : s.ph = .idle) : Tick s s
  | accepted (p : Phase) (hidle : s.ph = .idle) (hready : s.restartReq = false) (hp : p = .init ∨ p = .request) :
      Tick s (s.clearRecord.beginPhase p)
  | waiting (hrun : s.tx ≠ .tOff) (htr : s.ph.transacts = true) (hdone : s.inp.drvDone = false)
      (hmore : 2 ≤ s.tmr) : Tick s { s with tmr := s.tmr - 1 }
  | aborted (n : Nat) (c : ErrClass) (hrun : s.tx ≠ .tOff) (htr : s.ph.transacts = true) :
      Tick s (({ s with tmr := n }.failTransaction c).finish false)
  | wrote (b : Byte) (x : TxPos) (i : BitVec 3) (htr : s.ph.transacts = true) (hrun : s.tx ≠ .tOff) (hx : x ≠ .tOff)
      (hlegal : ({ s with tx := x, idx := i } : State).seqLegal = true) :
      Tick s { s.issueWrite b with tx := x, idx := i }
  | readFirst (hp : s.ph = .fetch) (hrun : s.tx ≠ .tOff) : Tick s { s.issueRead true with tx := .tData, idx := 0#3 }
  | readNext (a : Bool) (hp : s.ph = .fetch) (hx : s.tx = .tData) (hi : s.idx.toNat < 5) (hdone : s.inp.drvDone = true)
      (hst : s.inp.drvStatus = s.cfg.stRxdataAck) :
      Tick s { { s with raw := s.raw.setIfInBounds s.idx.toNat s.inp.drvRdata }.issueRead a with idx := s.idx + 1#3 }
  | initialised (hp : s.ph = .init) : Tick s { (s.issueStop.endTransaction true).finish true with inited := true }
  | requested (hp : s.ph = .request) :
      Tick s { s.issueStop.endTransaction true with ph := .settle, tmr := s.cfg.settle }
  | receivedStopped (hp : s.ph = .fetch) (hx : s.tx = .tData) (hi : s.idx.toNat = 5) (hdone : s.inp.drvDone = true)
      (hst : s.inp.drvStatus = s.cfg.stRxdataNack) (hstop : s.cfg.recvStop = true) :
      Tick s { s.issueStop.endTransaction true with
        ph := .decode, raw := s.raw.setIfInBounds s.idx.toNat s.inp.drvRdata }
  | receivedHeld (hp : s.ph = .fetch) (hx : s.tx = .tData) (hi : s.idx.toNat = 5) (hdone : s.inp.drvDone = true)
      (hst : s.inp.drvStatus = s.cfg.stRxdataNack) (hstop : s.cfg.recvStop = false) :
      Tick s { s.endTransaction true with ph := .decode, raw := s.raw.setIfInBounds s.idx.toNat s.inp.drvRdata }
  | settling (hp : s.ph = .settle) (hmore : 2 ≤ s.tmr) : Tick s { s with tmr := s.tmr - 1 }
  | settled (hp : s.ph = .settle) (hlast : s.tmr ≤ 1) : Tick s ({ s with tmr := 0 }.beginPhase .fetch)
  | decoded (hp : s.ph = .decode) : Tick s { s with raw := decodeSix s.raw, ph := .sigchk }
  | failed (hp : s.ph = .sigchk) (hsig : isSignature s.raw = true) : Tick s s.deviceFailure
  | passed (hp : s.ph = .sigchk) (hsig : isSignature s.raw = false) : Tick s { s with ph := .commit }
  | committed (hp : s.ph = .commit) (hready : s.commitReady = true) : Tick s (s.commitReport.finish true)

/-! ### Every step is one of its cases -/

/-- R116: the end of a sent byte. -/
theorem tick_advance_sent {s : State} (hl : s.seqLegal = true) (hx : s.tx = .tData) (hp : s.ph = .init ∨ s.ph = .request) :
    Tick s (s.advance s.inp.drvRdata) := by
  have hrun : s.tx ≠ .tOff := by simp [hx]
  rcases hp with hp | hp
  · have hi : s.idx = 0#3 ∨ s.idx = 1#3 := by
      have hle : s.idx.toNat ≤ 1 := by simpa [State.seqLegal, hp, hx] using hl
      bv_omega
    rcases hi with hi | hi
    · have hlegal : ({ s with tx := .tData, idx := 1#3 } : State).seqLegal = true := by simp [State.seqLegal, hp]
      simpa [State.advance, hx, hp, hi, Phase.dir, Phase.sendBytes] using
        Tick.wrote 0x00#8 .tData 1#3 (State.transacts_of_legal hl hrun) hrun (by decide) hlegal
    · simpa [State.advance, hx, hp, hi, Phase.dir, Phase.sendBytes, State.complete] using Tick.initialised hp
  · have hi : s.idx = 0#3 := by simpa [State.seqLegal, hp, hx] using hl
    simpa [State.advance, hx, hp, hi, Phase.dir, Phase.sendBytes, State.complete] using Tick.requested hp

/-- R117: the end of a received byte, with the acknowledge code up to the fifth and the other one for the sixth. -/
theorem tick_advance_received {s : State} (hl : s.seqLegal = true) (hx : s.tx = .tData) (hp : s.ph = .fetch)
    (hdone : s.inp.drvDone = true) (hst : s.inp.drvStatus ∈ expectedStatus s.cfg .tData true s.idx.toNat) :
    Tick s (s.advance s.inp.drvRdata) := by
  have hi : s.idx.toNat ≤ 5 := by simpa [State.seqLegal, hp, hx] using hl
  rcases hi.lt_or_eq with hi | hi
  · have hmore : s.idx.toNat + 1 < 6 := by omega
    have hack : s.inp.drvStatus = s.cfg.stRxdataAck := by simpa [expectedStatus, receiveLength, hmore] using hst
    simpa [State.advance, hx, hp, Phase.dir, receiveLength, hmore] using Tick.readNext _ hp hx hi hdone hack
  · have hnack : s.inp.drvStatus = s.cfg.stRxdataNack := by simpa [expectedStatus, receiveLength, hi] using hst
    cases hstop : s.cfg.recvStop
    · simpa [State.advance, hx, hp, Phase.dir, receiveLength, hi, hstop, State.complete] using
        Tick.receivedHeld hp hx hi hdone hnack hstop
    · simpa [State.advance, hx, hp, Phase.dir, receiveLength, hi, hstop, State.complete] using
        Tick.receivedStopped hp hx hi hdone hnack hstop

/-- R114 to R117: what follows a verified answer is one of the cases of `Tick`. -/
theorem tick_advance {s : State} (hl : s.seqLegal = true) (hrun : s.tx ≠ .tOff) (hdone : s.inp.drvDone = true)
    (hst : s.inp.drvStatus ∈ expectedStatus s.cfg s.tx s.ph.dir s.idx.toNat) : Tick s (s.advance s.inp.drvRdata) := by
  have htr := State.transacts_of_legal hl hrun
  cases hx : s.tx with
  | tOff => exact absurd hx hrun
  | tStart =>
    simpa [State.advance, hx, State.idx_of_tStart hl hx] using
      Tick.wrote (addrByte s.cfg.devAddr s.ph.dir) .tAddr 0#3 htr hrun (by decide) (State.seqLegal_at_zero htr (by decide))
  | tAddr =>
    cases hdir : s.ph.dir
    · simpa [State.advance, hx, hdir] using
        Tick.wrote (s.ph.sendBytes.getD 0 0#8) .tData 0#3 htr hrun (by decide) (State.seqLegal_at_zero htr (by decide))
    · simpa [State.advance, hx, hdir, receiveLength] using Tick.readFirst (by simpa [Phase.dir] using hdir) hrun
  | tData =>
    rcases (Phase.transacts_iff _).mp htr with hp | hp | hp
    · exact tick_advance_sent hl hx (.inl hp)
    · exact tick_advance_sent hl hx (.inr hp)
    · exact tick_advance_received hl hx hp hdone (by simpa [hx, hp, Phase.dir] using hst)

/-- R250, R95: a tick of a wait takes the answer, times out or counts down. -/
theorem tick_waitTick {s : State} (hl : s.seqLegal = true) (hrun : s.tx ≠ .tOff) : Tick s s.waitTick := by
  have htr := State.transacts_of_legal hl hrun
  rcases s.waitTick_cases with ⟨hdone, h⟩ | ⟨-, -, h⟩ | ⟨hwait, hmore, h⟩
  · rcases s.answerStep_cases (.done s.inp.drvStatus s.inp.drvRdata) with
      ⟨st, rd, ha, hst, hadv⟩ | ⟨st, rd, -, -, habort⟩ | ⟨ha, -⟩
    · cases ha
      rw [h, hadv]
      exact tick_advance hl hrun hdone hst
    · rw [h, habort, State.abort_eq _ htr]
      exact .aborted s.tmr _ hrun htr
    · cases ha
  · rw [h, State.abort_eq (s := { s with tmr := 0 }) _ htr]
    exact .aborted 0 _ hrun htr
  · rw [h]
    exact .waiting hrun htr hwait hmore

/-- R171: the operation of the phase in `PH`. -/
theorem tick_phase {s t : State} {i : Instr} (hl : s.seqLegal = true) (ho : s.ph.operation = some i)
    (h : exec i s = .next t) : Tick s t := by
  rcases phase_cases hl ho h with ⟨hrun, -, rfl⟩ | ⟨hp, h⟩ | ⟨hp, h⟩ | ⟨hp, h⟩ | ⟨hp, h⟩
  · exact tick_waitTick hl hrun
  · unfold execPhSettle at h
    split at h <;> cases h
    · exact .settled hp (by omega)
    · exact .settling hp (by omega)
  · cases h
    exact .decoded hp
  · unfold execPhSigchk at h
    split at h <;> cases h
    next hsig => exact .failed hp hsig
    next hsig => exact .passed hp (by simpa using hsig)
  · unfold execPhCommit at h
    split at h <;> cases h
    next hready => exact .committed hp hready

/-- R170: a command in IDLE is accepted where no restart request stands, and else has no effect. -/
theorem tick_command {s t : State} (hidle : s.ph = .idle) (h : exec .init s = .next t ∨ exec .poll s = .next t) :
    Tick s t := by
  cases hready : s.restartReq <;> simp [exec, execInit, execPoll, State.cmdReady, hidle, hready] at h
  · rcases h with rfl | rfl
    · exact .accepted .init hidle hready (.inl rfl)
    · exact .accepted .request hidle hready (.inr rfl)
  · subst h
    exact .quiet hidle

/-- The inversion of a step with nothing placed: a reset tick, or from a legal state one of the cases of `Tick`. -/
theorem step_tick {s t : State} (hslot : s.slot = none) (h : step s = .next t) :
    s.cfg.wf = true ∧ ((s.sample.inp.rst = true ∧ t = s.sample.doReset) ∨
      (s.sample.inp.rst = false ∧ s.seqLegal = true ∧ Tick s.sample t)) := by
  obtain ⟨hwf, ⟨hrst, ht⟩ | ⟨hrst, hl, h⟩⟩ := step_cases hslot h
  · exact ⟨hwf, .inl ⟨hrst, ht⟩⟩
  · refine ⟨hwf, .inr ⟨hrst, hl, ?_⟩⟩
    rcases h with ⟨i, ho, h⟩ | ⟨hp, -, ⟨-, h⟩ | ⟨-, h⟩⟩ | ⟨hp, rfl⟩
    · exact tick_phase (by simpa using hl) (by simpa using ho) h
    · exact tick_command (by simpa using hp) (.inl h)
    · exact tick_command (by simpa using hp) (.inr h)
    · exact .quiet (by simpa using hp)

end Sys2Proof.Machine
end

