-- ==== Sys2Proof/Proofs/Invariant.lean ====
section
/-! The invariant of R32, R33, R118, R203 and R250: the reset state meets it and every case of `Tick` keeps each of its parts. -/

namespace Sys2Proof.Machine

/-! ### The COMMIT step's writes (R178) -/

section
variable (s : State)

@[simp] theorem State.commitReport_tx : s.commitReport.tx = s.tx := rfl
@[simp] theorem State.commitReport_tmr : s.commitReport.tmr = s.tmr := rfl
@[simp] theorem State.commitReport_cfg : s.commitReport.cfg = s.cfg := rfl
@[simp] theorem State.commitReport_drvValid : s.commitReport.drvValid = s.drvValid := rfl
@[simp] theorem State.commitReport_trace : s.commitReport.trace = s.trace := rfl

theorem State.commitReport_calMax_getElem (a : Fin 4) :
    s.commitReport.calMax[a] = smax s.calMax[a] (axisDeviation s.cfg s.raw a) := by
  fin_cases a <;> rfl

theorem State.commitReport_calMin_getElem (a : Fin 4) :
    s.commitReport.calMin[a] = smin s.calMin[a] (axisDeviation s.cfg s.raw a) := by
  fin_cases a <;> rfl

end

/-- Button 15 is bit 7 of the second button byte (R160). -/
theorem setButton_fifteen (btn : Vector Byte 2) : (setButton btn 15#4 false)[1].getLsbD 7 = false := by
  have h := setButton_getLsbD btn 15#4 false 15 (by decide)
  rw [BitVec.getLsbD_append] at h
  exact h

/-! ### Each part of the invariant, over the cases of a tick -/

section
variable {s t : State}

theorem Tick.cfg_slot (h : Tick s t) : t.cfg = s.cfg ∧ t.slot = s.slot := by
  cases h <;> exact ⟨rfl, rfl⟩

/-- Only COMMIT writes the report and the bounds (R14, R15). -/
theorem Tick.report_frame (h : Tick s t) (hc : s.ph ≠ .commit) :
    t.report = s.report ∧ t.calMax = s.calMax ∧ t.calMin = s.calMin := by
  cases h with
  | committed hp => exact absurd hp hc
  | _ => exact ⟨rfl, rfl, rfl⟩

theorem Tick.eq_of_commit (h : Tick s t) (hc : s.ph = .commit) : t = s.commitReport.finish true := by
  cases h with
  | committed => rfl
  | _ => simp_all [Phase.transacts]

/-- In COMMIT each bound takes the maximum or minimum with the deviation (R145); elsewhere it stays. -/
theorem Tick.bounds_widen (h : Tick s t) (a : Fin 4) :
    s.calMax[a].toInt ≤ t.calMax[a].toInt ∧ t.calMin[a].toInt ≤ s.calMin[a].toInt := by
  by_cases hc : s.ph = .commit
  · rw [h.eq_of_commit hc, State.finish_calMax, State.finish_calMin, State.commitReport_calMax_getElem,
      State.commitReport_calMin_getElem, smax_toInt, smin_toInt]
    exact ⟨le_max_left _ _, min_le_left _ _⟩
  · obtain ⟨-, hmax, hmin⟩ := h.report_frame hc
    rw [hmax, hmin]
    exact ⟨le_rfl, le_rfl⟩

theorem Tick.keeps_boundsEncloseSeed (h : Tick s t) (hs : s.boundsEncloseSeed) : t.boundsEncloseSeed := by
  intro a
  obtain ⟨hmax, hmin⟩ := hs a
  obtain ⟨hup, hdown⟩ := h.bounds_widen a
  rw [h.cfg_slot.1]
  exact ⟨hmax.trans hup, hdown.trans hmin⟩

theorem Tick.keeps_buttonFifteenClear (h : Tick s t) (hs : s.buttonFifteenClear) : t.buttonFifteenClear := by
  unfold State.buttonFifteenClear at *
  by_cases hc : s.ph = .commit
  · rw [h.eq_of_commit hc]
    exact fun _ => setButton_fifteen _
  · rwa [(h.report_frame hc).1, h.cfg_slot.1]

theorem Tick.keeps_seqLegal (h : Tick s t) (hl : s.seqLegal = true) : t.seqLegal = true := by
  cases h with
  | quiet | waiting | settling => exact hl
  | accepted p hidle hready hp => rcases hp with rfl | rfl <;> rfl
  | wrote b x i htr hrun hx hlegal => exact hlegal
  | readFirst hp | settled hp => simp [State.seqLegal, hp]
  | readNext a hp hx hi =>
    simp [State.seqLegal, hp, hx]
    omega
  | aborted | initialised | requested | receivedStopped | receivedHeld =>
    exact (State.seqLegal_iff_of_quiet rfl).mpr ⟨rfl, rfl⟩
  | decoded hp | failed hp | passed hp | committed hp =>
    have hrest := (State.seqLegal_iff_of_quiet (by rw [hp]; rfl)).mp hl
    exact (State.seqLegal_iff_of_quiet rfl).mpr hrest

theorem Tick.keeps_restartOnlyIdle (h : Tick s t) (hs : s.restartOnlyIdle) : t.restartOnlyIdle := by
  unfold State.restartOnlyIdle at *
  cases h with
  | accepted p hidle hready => simp [hready]
  | failed => exact fun _ => rfl
  | _ => simp_all

/-- START takes the bus and STOP frees it (R23); with `RECV_STOP = 0` a fetch ends without STOP (R118). -/
theorem Tick.keeps_busOwnedExactly (h : Tick s t) (hs : s.busOwnedExactly) : t.busOwnedExactly := by
  obtain ⟨hown, hfree⟩ := hs
  cases h with
  | accepted | settled => exact ⟨fun _ => rfl, fun _ hx => nomatch hx⟩
  | aborted | initialised | requested | receivedStopped => exact ⟨fun hx => absurd rfl hx, fun _ _ => rfl⟩
  | receivedHeld hp hx hi hdone hst hstop =>
    exact ⟨fun hx => absurd rfl hx, fun hrecv => absurd hrecv (by simp [hstop])⟩
  | wrote b x i htr hrun hx => exact ⟨fun _ => hown hrun, fun _ hoff => absurd hoff hx⟩
  | readFirst hp hrun => exact ⟨fun _ => hown hrun, fun _ hoff => nomatch hoff⟩
  | _ => exact ⟨hown, hfree⟩

theorem Tick.keeps_timerBounded (h : Tick s t) (hwf : s.cfg.wf = true) (hs : s.timerBounded) : t.timerBounded := by
  have htimeout : 1 ≤ s.cfg.timeout := by simp_all [Config.wf]
  obtain ⟨hwait, hsettle⟩ := hs
  have hfall : s.tmr - 1 ≤ s.tmr := Nat.sub_le _ _
  cases h with
  | accepted p hidle hready hp => exact ⟨fun _ => ⟨htimeout, le_rfl⟩, by rintro rfl; simp at hp⟩
  | waiting hrun htr hdone hmore =>
    exact ⟨fun _ => ⟨Nat.le_sub_one_of_lt hmore, hfall.trans (hwait hrun).2⟩,
      fun hp => absurd hp (Phase.ne_of_transacts htr rfl)⟩
  | wrote b x i htr => exact ⟨fun _ => ⟨htimeout, le_rfl⟩, fun hp => absurd hp (Phase.ne_of_transacts htr rfl)⟩
  | settling hp hmore =>
    exact ⟨fun hrun => ⟨Nat.le_sub_one_of_lt hmore, hfall.trans (hwait hrun).2⟩, fun _ => hfall.trans (hsettle hp)⟩
  | _ => simp_all [State.timerBounded]

/-- Acceptance clears the record (R170), and an error is recorded on the way to IDLE (R203). -/
theorem Tick.keeps_recordClearWhileBusy (h : Tick s t) (hs : s.recordClearWhileBusy) : t.recordClearWhileBusy := by
  unfold State.recordClearWhileBusy at *
  cases h with
  | accepted => exact fun _ => ⟨rfl, rfl, rfl, rfl⟩
  | aborted | initialised | failed | committed => exact fun hbusy => absurd rfl hbusy
  | _ => simp_all

/-- `Complete` is the one writer of `done`, and leaves `PH` in IDLE (R171). -/
theorem Tick.done_iff (h : Tick s t) (hlow : s.done = false) : t.done = true ↔ s.ph ≠ .idle ∧ t.ph = .idle := by
  cases h with
  | aborted n c hrun htr => simpa using Phase.ne_of_transacts htr rfl
  | _ => simp_all

theorem Tick.keeps_inv (h : Tick s t) (hlow : s.done = false) (hs : s.Inv) : t.Inv := by
  obtain ⟨hwf, hslot, hl, hbounds, hbtn, hrestart, hbus, htmr, hrec, -⟩ := hs
  obtain ⟨hcfg, hempty⟩ := h.cfg_slot
  exact ⟨hcfg ▸ hwf, hempty ▸ hslot, h.keeps_seqLegal hl, h.keeps_boundsEncloseSeed hbounds,
    h.keeps_buttonFifteenClear hbtn, h.keeps_restartOnlyIdle hrestart, h.keeps_busOwnedExactly hbus,
    h.keeps_timerBounded hwf htmr, h.keeps_recordClearWhileBusy hrec, fun hd => ((h.done_iff hlow).mp hd).2⟩

theorem State.sample_inv (hs : s.Inv) : s.sample.Inv := by
  obtain ⟨hwf, hslot, hl, hbounds, hbtn, hrestart, hbus, htmr, hrec, -⟩ := hs
  unfold State.sample
  split <;> exact ⟨hwf, hslot, hl, hbounds, hbtn, hrestart, hbus, htmr, hrec, fun h => nomatch h⟩

end

/-! ### The reset state -/

section
variable {c : Config} (hwf : c.wf = true)
include hwf

/-- The seed fits in a signed byte (R6), so the reset bounds are the seed and its negation. -/
theorem calSeed_toInt :
    (BitVec.ofNat 8 c.calSeed).toInt = c.calSeed ∧ (-BitVec.ofNat 8 c.calSeed).toInt = -(c.calSeed : Int) := by
  obtain ⟨hlo, hhi⟩ : 1 ≤ c.calSeed ∧ c.calSeed ≤ 127 := by simp_all [Config.wf]
  have hseed : (BitVec.ofNat 8 c.calSeed).toInt = c.calSeed := by
    rw [BitVec.toInt_ofNat', Int.bmod_eq_of_le] <;> omega
  refine ⟨hseed, ?_⟩
  rw [BitVec.toInt_neg, hseed, Int.bmod_eq_of_le] <;> omega

theorem State.resetOf_boundsEncloseSeed : (State.resetOf c).boundsEncloseSeed := by
  obtain ⟨hmax, hmin⟩ := calSeed_toInt hwf
  intro a
  have hseed : (State.resetOf c).calMax[a] = BitVec.ofNat 8 c.calSeed ∧
      (State.resetOf c).calMin[a] = -BitVec.ofNat 8 c.calSeed := by
    fin_cases a <;> exact ⟨rfl, rfl⟩
  rw [hseed.1, hseed.2, hmax, hmin]
  exact ⟨le_rfl, le_rfl⟩

theorem State.resetOf_inv : (State.resetOf c).Inv :=
  ⟨hwf, rfl, rfl, State.resetOf_boundsEncloseSeed hwf, id, fun _ => rfl, ⟨fun h => absurd rfl h, fun _ _ => rfl⟩,
    ⟨fun h => absurd rfl h, fun h => nomatch h⟩, fun h => absurd rfl h, fun _ => rfl⟩

end

/-- The fields that a reset tick keeps beside the build do not stand in the invariant. -/
theorem State.doReset_inv {s : State} (hwf : s.cfg.wf = true) : s.doReset.Inv := State.resetOf_inv hwf

/-- Settles O9: the registers of R31 meet every part of the invariant, and the default build exists. -/
theorem resetMeetsInvariant : Obligations.ResetMeetsInvariant :=
  ⟨fun _ hwf => State.resetOf_inv hwf, State.resetOf_inv (by decide)⟩

/-- Settles O10: a reset tick leaves the reset state, and every other tick is a case of `Tick` on the sampled state. -/
theorem stepKeepsInvariant : Obligations.StepKeepsInvariant := by
  intro s t hs h
  have hslot : s.slot = none := hs.2.1
  obtain ⟨hwf, ⟨-, rfl⟩ | ⟨-, -, htick⟩⟩ := step_tick hslot h
  · exact State.doReset_inv (by simpa using hwf)
  · exact htick.keeps_inv s.sample_done (State.sample_inv hs)

end Sys2Proof.Machine
end

