-- ==== Sys2Proof/Proofs/RegisterWriters.lean ====
section
/-! Which tick writes a register or a port: the bounds, the report, `RAW`, the flags, `done` and the driver port (R10 to R22). -/

namespace Sys2Proof.Machine

/-! ### Who writes what, over the cases of a tick -/

section
variable {s t : State}

theorem Tick.raw_frame (h : Tick s t) (hf : s.ph ≠ .fetch) (hd : s.ph ≠ .decode) : t.raw = s.raw := by
  cases h with
  | readNext _ hp | receivedStopped hp | receivedHeld hp => exact absurd hp hf
  | decoded hp => exact absurd hp hd
  | _ => rfl

/-- R113, R117: FETCH stores the received byte at `IDX`, after its status verified. -/
theorem Tick.raw_of_fetch (h : Tick s t) (hf : s.ph = .fetch) :
    t.raw = s.raw ∨
      s.tx = .tData ∧ s.inp.drvDone = true ∧ t.raw = s.raw.setIfInBounds s.idx.toNat s.inp.drvRdata ∧
        s.inp.drvStatus = if s.idx.toNat < 5 then s.cfg.stRxdataAck else s.cfg.stRxdataNack := by
  cases h with
  | readNext a hp hx hi hdone hst => exact .inr ⟨hx, hdone, rfl, by rw [if_pos hi, hst]⟩
  | receivedStopped hp hx hi hdone hst | receivedHeld hp hx hi hdone hst =>
    exact .inr ⟨hx, hdone, rfl, by rw [if_neg (by omega), hst]⟩
  | decoded hp => simp [hp] at hf
  | _ => exact .inl rfl

/-- R177: the signature of SIGCHK is the one cause of a restart request. -/
theorem Tick.restartReq_rises (h : Tick s t) (hne : t.restartReq ≠ s.restartReq) :
    t.restartReq = true ∧ s.ph = .sigchk ∧ ∀ j : Fin 6, s.raw[j] = 0xFF#8 := by
  cases h with
  | failed hp hsig => exact ⟨rfl, hp, (isSignature_iff _).mp hsig⟩
  | _ => exact absurd rfl hne

theorem Tick.inited_rises (h : Tick s t) (hne : t.inited ≠ s.inited) :
    t.inited = true ∧ s.ph = .init ∧ t.ok = true ∧ t.done = true := by
  cases h with
  | initialised hp => exact ⟨rfl, hp, rfl, rfl⟩
  | _ => exact absurd rfl hne

theorem Tick.ok_frame (h : Tick s t) (hd : t.done = false) : t.ok = s.ok := by
  cases h with
  | aborted | initialised | failed | committed => cases hd
  | _ => rfl

end

/-- A byte that a store at index `k` changed is the byte at `k`, and holds the byte stored. -/
theorem setIfInBounds_changes {v : Vector Byte 6} {k : Nat} {x : Byte} {j : Fin 6} (h : (v.setIfInBounds k x)[j] ≠ v[j]) :
    j.val = k ∧ (v.setIfInBounds k x)[j] = x := by
  simp only [Fin.getElem_fin, Vector.getElem_setIfInBounds] at h ⊢
  split at h
  next hk => simp [hk]
  next => exact absurd rfl h

/-! ### The driver port -/

/-- The five forms of a driver word (R61). -/
def IsDriverForm (w : DrvWord) : Prop :=
  w = 0x000#11 ∨ (∃ b : Byte, w = 0x200#11 ||| b.setWidth 11) ∨ w = 0x500#11 ∨ w = 0x400#11 ∨ w = 0x600#11

theorem isDriverForm_start : IsDriverForm (drvWord 0b00#2 false 0x00#8) := .inl rfl

theorem isDriverForm_write (b : Byte) : IsDriverForm (drvWord 0b01#2 false b) := by
  have hword : drvWord 0b01#2 false b = 0x200#11 ||| b.setWidth 11 := by
    revert b
    decide
  exact .inr (.inl ⟨b, hword⟩)

theorem isDriverForm_read (a : Bool) : IsDriverForm (drvWord 0b10#2 a 0x00#8) := by
  cases a
  · exact .inr (.inr (.inr (.inl rfl)))
  · exact .inr (.inr (.inl rfl))

theorem isDriverForm_stop : IsDriverForm (drvWord 0b11#2 false 0x00#8) := .inr (.inr (.inr (.inr rfl)))

/-- A tick that issues a word issues it once, with `drv_valid`; the others leave the port low and the trace alone. -/
theorem Tick.driverPort {s t : State} (h : Tick s t) (hlow : s.drvValid = false) :
    (t.drvValid = false → t.trace = s.trace) ∧
      (t.drvValid = true → t.trace = s.trace ++ [t.drvCmd] ∧ IsDriverForm t.drvCmd) := by
  cases h with
  | accepted | settled => simp [isDriverForm_start]
  | wrote => simp [isDriverForm_write]
  | readFirst | readNext => simp [isDriverForm_read]
  | aborted | initialised | requested | receivedStopped => simp [isDriverForm_stop]
  | _ => simp [hlow]

/-! ### Runs -/

section
variable {M : Host.Core} {s : M.State}

theorem run_succ_of_next {u : M.State} (n : Nat) (h : M.step s = .next u) : M.run (n + 1) s = M.run n u := by
  simp only [Host.Core.run, h]

theorem run_succ_of_refused {r : M.Refusal} (n : Nat) (h : M.step s = .refused r) : M.run (n + 1) s = .refused r := by
  simp only [Host.Core.run, h]

end

/-! ### The statements -/

theorem step_tick_of_no_reset {s t : State} (hslot : s.slot = none) (hrst : s.sample.inp.rst = false)
    (h : step s = .next t) : Tick s.sample t := by
  obtain ⟨-, ⟨hreset, -⟩ | ⟨-, -, htick⟩⟩ := step_tick hslot h
  · simp [hrst] at hreset
  · exact htick

/-- Settles O19. -/
theorem boundsOnlyWiden : Obligations.BoundsOnlyWiden := by
  intro s t a hslot hrst h
  simpa using (step_tick_of_no_reset hslot hrst h).bounds_widen a

/-- Settles O20, by induction on the length of the run. -/
theorem reportMovesAtCommitOnly : Obligations.ReportMovesAtCommitOnly := by
  intro n
  induction n with
  | zero =>
    intro s t _ h _
    cases h
    exact ⟨rfl, rfl, rfl⟩
  | succ n ih =>
    intro s t hslot h hquiet
    cases hstep : step s with
    | next u =>
      obtain ⟨hcommit, hrst⟩ := hquiet 0 s n.succ_pos rfl
      have htick := step_tick_of_no_reset hslot hrst hstep
      obtain ⟨hreport, hmax, hmin⟩ := htick.report_frame (by simpa using hcommit)
      have hempty : u.slot = none := by simpa [hslot] using htick.cfg_slot.2
      have hrest := ih u t hempty ((run_succ_of_next (M := core) n hstep).symm.trans h) fun m v hm hv =>
        hquiet (m + 1) v (Nat.succ_lt_succ hm) ((run_succ_of_next (M := core) m hstep).trans hv)
      simpa [hreport, hmax, hmin] using hrest
    | fault r => cases r
    | refused r => cases (run_succ_of_refused (M := core) n hstep).symm.trans h

/-- Settles O21: in FETCH the changed byte is the one stored. -/
theorem rawWrittenByteByByte : Obligations.RawWrittenByteByByte := by
  intro s t hslot hrst h
  have htick := step_tick_of_no_reset hslot hrst h
  refine ⟨fun hf hd => ?_, fun hf j hj => ?_⟩
  · simpa using htick.raw_frame (by simpa using hf) (by simpa using hd)
  · obtain hsame | ⟨hx, hdone, hraw, hst⟩ := htick.raw_of_fetch (by simpa using hf)
    · simp [hsame] at hj
    · simp only [State.sample_tx, State.sample_raw, State.sample_idx, State.sample_cfg] at hx hraw hst
      rw [hraw] at hj ⊢
      obtain ⟨hidx, hbyte⟩ := setIfInBounds_changes hj
      exact ⟨hidx, hx, hdone, hbyte, hst⟩

/-- Settles O22. -/
theorem flagsHaveOneWriter : Obligations.FlagsHaveOneWriter := by
  intro s t hslot hrst h
  have htick := step_tick_of_no_reset hslot hrst h
  refine ⟨fun hne => ?_, fun hne => ?_, fun hd => ?_⟩
  · simpa using htick.restartReq_rises (by simpa using hne)
  · simpa using htick.inited_rises (by simpa using hne)
  · simpa using htick.ok_frame hd

/-- Settles O23: a reset tick leaves `done` low. -/
theorem donePulsesAtCompletion : Obligations.DonePulsesAtCompletion := by
  intro s t hslot h
  obtain ⟨-, ⟨hrst, rfl⟩ | ⟨hrst, -, htick⟩⟩ := step_tick hslot h
  · simp [hrst]
  · simpa [hrst] using htick.done_iff s.sample_done

/-- Settles O24: a reset tick issues nothing. -/
theorem oneDriverWordPerTick : Obligations.OneDriverWordPerTick := by
  intro s t hslot h
  obtain ⟨-, ⟨-, rfl⟩ | ⟨-, -, htick⟩⟩ := step_tick hslot h
  · simp
  · rw [← s.sample_trace]
    exact htick.driverPort s.sample_drvValid

end Sys2Proof.Machine
end

