-- ==== Sys2Proof/Proofs/BuildConstant.lean ====
section
/-! The build is constant (R27): no operation writes the parameters, the whole transactions and placed operations included. -/

namespace Sys2Proof.Machine

section
variable {s t : State}

/-- A wait inside a whole transaction keeps the build if what follows a verified answer does. -/
theorem verifyWait_cfg (e : List Byte) (k : Byte → State → TransactionEnd × State) (s : State)
    (hk : ∀ r u, (k r u).2.cfg = u.cfg) : (verifyWait e k s).2.cfg = s.cfg := by
  have hwait : (waitTicks s.tmr s).2.cfg = s.cfg := (waitTicks_frame s.tmr s).1
  unfold verifyWait
  split
  next t h => simpa [h] using hwait
  next a t h =>
    replace hwait : t.cfg = s.cfg := by simpa [h] using hwait
    split
    · rw [hk, hwait]
    · simpa using hwait

theorem sendData_cfg (bs : List Byte) (i : BitVec 3) (s : State) : (sendData bs i s).2.cfg = s.cfg := by
  induction bs generalizing i s with
  | nil => rfl
  | cons b rest ih => exact verifyWait_cfg _ _ _ fun _ u => ih _ u

theorem receiveData_cfg (n : Nat) (i : BitVec 3) (s : State) : (receiveData n i s).2.cfg = s.cfg := by
  induction n generalizing i s with
  | zero => cases hstop : s.cfg.recvStop <;> simp [receiveData, hstop]
  | succ n ih => exact verifyWait_cfg _ _ _ fun _ u => ih _ _

theorem openTransaction_cfg (a : BitVec 7) (dir : Bool) (k : State → TransactionEnd × State) (s : State)
    (hk : ∀ u, (k u).2.cfg = u.cfg) : (openTransaction a dir k s).2.cfg = s.cfg :=
  verifyWait_cfg _ _ _ fun _ _ => verifyWait_cfg _ _ _ fun _ u => hk u

theorem State.waitTick_cfg (s : State) : s.waitTick.cfg = s.cfg := by
  rcases s.waitTick_cases with ⟨-, h⟩ | ⟨-, -, h⟩ | ⟨-, -, h⟩ <;> rw [h]
  · exact (s.answerStep_frame _).1
  · simp [State.abort]

theorem State.transactionPhase_cfg {p : Phase} (h : s.transactionPhase p = .next t) : t.cfg = s.cfg := by
  unfold State.transactionPhase at h
  split at h
  · cases h
    rfl
  · split at h
    · cases h
    · split at h <;> cases h
      exact s.waitTick_cfg

/-- Operations that write registers directly keep the build by definition; the others by the lemmas above. -/
theorem exec_cfg {i : Instr} (h : exec i s = .next t) : t.cfg = s.cfg := by
  cases i <;> simp only [exec, execInit, execPoll, execWait, execPhSettle, execPhSigchk, execPhCommit, execDec, execField,
    execCal, execTrig] at h
  case start | write | read | stop | phDecode | center | setbtn | pack => cases h; rfl
  case init | poll | phSettle | phSigchk | phCommit | dec | cal | trig => split at h <;> cases h <;> rfl
  case field =>
    split at h
    · cases h; rfl
    · split at h
      · split at h <;> cases h
        rfl
      · cases h
  case wait =>
    split at h
    · cases h; rfl
    · split at h <;> cases h
      exact (s.answerStep_frame _).1
  case send => cases h; exact openTransaction_cfg _ _ _ _ (sendData_cfg _ _)
  case receive => cases h; exact openTransaction_cfg _ _ _ _ (receiveData_cfg _ _)
  case phInit | phRequest | phFetch => exact State.transactionPhase_cfg h

/-- A placed word runs as an operation in a tick of its own, or is ignored (log entry 4). -/
theorem step_slot_cases {w : OpWord} (hslot : s.slot = some w) (h : step s = .next t) :
    (∃ i, exec i { s with slot := none, done := false, drvValid := false } = .next t) ∨
      t = { s with slot := none, done := false, drvValid := false } := by
  cases hwf : s.cfg.wf <;> simp only [step, State.fetch, hwf, hslot, State.fetchSlot] at h
  · cases h
  · cases hw : decode w with
    | ok i => exact .inl ⟨i, by simpa [hw] using h⟩
    | error e =>
      cases e <;> simp [hw] at h
      exact .inr h.symm

end

/-- Settles O18: a tick of the hardware by the cases of `Tick`, a placed operation by `exec_cfg`. -/
theorem buildIsConstant : Obligations.BuildIsConstant := by
  intro s t h
  cases hslot : s.slot with
  | none =>
    obtain ⟨-, ⟨-, rfl⟩ | ⟨-, -, htick⟩⟩ := step_tick hslot h
    · simp
    · simpa using htick.cfg_slot.1
  | some w =>
    obtain ⟨i, h⟩ | rfl := step_slot_cases hslot h
    · exact (exec_cfg h).trans rfl
    · rfl

end Sys2Proof.Machine
end

