-- ==== Sys2Proof/Proofs/Diagnostics.lean ====
section
/-! The diagnostic registers feed nothing (R22 to R24): every part of a step commutes with erasing them. -/

namespace Sys2Proof.Machine

/-- The outcome without the diagnostic registers of its next state (R22 to R24). -/
def Result.withoutDiagnostics : Result → Result
  | .next t => .next t.withoutDiagnostics
  | .fault r => .fault r
  | .refused r => .refused r

/-- Two choices by one condition look the same through `f` when their branches do. -/
theorem image_ite {α β : Type} (f : α → β) {c : Prop} [Decidable c] {x y x' y' : α} (hx : f x = f x') (hy : f y = f y') :
    f (if c then x else y) = f (if c then x' else y') := by
  split
  · exact hx
  · exact hy

section
variable (s : State)

/-! ### The shared updates -/

theorem State.sample_withoutDiagnostics : s.withoutDiagnostics.sample = s.sample.withoutDiagnostics := by
  unfold State.sample
  cases h : s.inputs <;> simp only [State.withoutDiagnostics, h]

theorem State.complete_withoutDiagnostics (b : Bool) :
    (s.withoutDiagnostics.complete b).withoutDiagnostics = (s.complete b).withoutDiagnostics := by
  have hph : s.withoutDiagnostics.ph = s.ph := rfl
  unfold State.complete
  cases hp : s.ph <;> cases b <;> simp only [hph, hp] <;> rfl

/-- `Complete` after two transaction ends that differ in the diagnostic registers only. -/
theorem State.complete_congr {s t : State} (h : s.withoutDiagnostics = t.withoutDiagnostics) (b : Bool) :
    (s.complete b).withoutDiagnostics = (t.complete b).withoutDiagnostics := by
  rw [← complete_withoutDiagnostics, h, complete_withoutDiagnostics]

theorem State.advance_withoutDiagnostics (r : Byte) :
    (s.withoutDiagnostics.advance r).withoutDiagnostics = (s.advance r).withoutDiagnostics := by
  have htx : s.withoutDiagnostics.tx = s.tx := rfl
  unfold State.advance
  cases hx : s.tx <;> simp only [htx, hx]
  case tStart => rfl
  case tOff => rfl
  case tAddr => exact image_ite _ rfl rfl
  case tData =>
    refine image_ite _ (image_ite _ rfl ?_) (image_ite _ rfl ?_)
    · refine complete_congr ?_ true
      exact image_ite (fun u => (State.endTransaction u true).withoutDiagnostics) rfl rfl
    · refine complete_congr ?_ true
      rfl

theorem State.abort_withoutDiagnostics (c : ErrClass) :
    (s.withoutDiagnostics.abort c).withoutDiagnostics = (s.abort c).withoutDiagnostics :=
  complete_congr (s := s.withoutDiagnostics.failTransaction c) (t := s.failTransaction c) rfl false

theorem State.answerStep_withoutDiagnostics (a : Answer) :
    (s.withoutDiagnostics.answerStep a).withoutDiagnostics = (s.answerStep a).withoutDiagnostics := by
  have hverify : verify a (expectedStatus s.withoutDiagnostics.cfg s.withoutDiagnostics.tx s.withoutDiagnostics.ph.dir
      s.withoutDiagnostics.idx.toNat) = verify a (expectedStatus s.cfg s.tx s.ph.dir s.idx.toNat) := rfl
  unfold State.answerStep
  rw [hverify]
  cases verify a (expectedStatus s.cfg s.tx s.ph.dir s.idx.toNat) with
  | pass r => exact s.advance_withoutDiagnostics r
  | raise c => exact s.abort_withoutDiagnostics c

theorem State.waitTick_withoutDiagnostics : s.withoutDiagnostics.waitTick.withoutDiagnostics = s.waitTick.withoutDiagnostics :=
  image_ite _ (s.answerStep_withoutDiagnostics _)
    (image_ite _ ({ s with tmr := 0 }.answerStep_withoutDiagnostics _) rfl)

theorem State.transactionPhase_withoutDiagnostics (p : Phase) :
    (s.withoutDiagnostics.transactionPhase p).withoutDiagnostics = (s.transactionPhase p).withoutDiagnostics :=
  image_ite _ rfl (image_ite _ rfl (image_ite _ (congrArg Host.Outcome.next s.waitTick_withoutDiagnostics) rfl))

/-! ### The operations that a tick of the hardware runs -/

theorem exec_operation_withoutDiagnostics {p : Phase} {i : Instr} (h : p.operation = some i) :
    Result.withoutDiagnostics (exec i s.withoutDiagnostics) = Result.withoutDiagnostics (exec i s) := by
  cases p <;> cases h
  case init | request | fetch => exact s.transactionPhase_withoutDiagnostics _
  case settle => exact image_ite _ rfl rfl
  case decode => rfl
  case sigchk => exact image_ite _ rfl rfl
  case commit => exact image_ite _ rfl rfl

theorem exec_command_withoutDiagnostics {w : BitVec 2} {i : Instr} (h : decode (.hostCmd w) = .ok i) :
    Result.withoutDiagnostics (exec i s.withoutDiagnostics) = Result.withoutDiagnostics (exec i s) := by
  have hi : i = .init ∨ i = .poll := by
    change decodeHostCmd w = .ok i at h
    unfold decodeHostCmd at h
    split at h
    · cases h; exact .inl rfl
    · split at h <;> cases h
      exact .inr rfl
  rcases hi with rfl | rfl <;> exact image_ite _ rfl rfl

/-! ### The step -/

/-- The outcome of a step that fetched `f`, without the diagnostic registers of its next state. -/
def Fetched.image : Fetched → Result
  | .run i t => Result.withoutDiagnostics (exec i t)
  | .quiet t => Result.withoutDiagnostics (.next t)
  | .refuse r => .refused r

theorem step_image : Result.withoutDiagnostics (step s) = s.fetch.image := by
  unfold step Fetched.image
  cases s.fetch <;> rfl

theorem State.fetchCommand_withoutDiagnostics : s.withoutDiagnostics.fetchCommand.image = s.fetchCommand.image := by
  have hinp : s.withoutDiagnostics.inp = s.inp := rfl
  unfold State.fetchCommand
  refine image_ite Fetched.image ?_ rfl
  cases hdec : decode (.hostCmd s.inp.cmdOp) with
  | ok i =>
    simp only [hinp, hdec]
    exact exec_command_withoutDiagnostics s hdec
  | error e =>
    simp only [hinp, hdec]
    rfl

theorem State.fetchTick_withoutDiagnostics : s.withoutDiagnostics.fetchTick.image = s.fetchTick.image := by
  have hph : s.withoutDiagnostics.ph = s.ph := rfl
  unfold State.fetchTick
  refine image_ite Fetched.image rfl (image_ite Fetched.image ?_ rfl)
  cases hop : s.ph.operation with
  | some i =>
    simp only [hph, hop]
    exact exec_operation_withoutDiagnostics s hop
  | none =>
    simp only [hph, hop]
    exact s.fetchCommand_withoutDiagnostics

theorem step_withoutDiagnostics (hslot : s.slot = none) :
    Result.withoutDiagnostics (step s.withoutDiagnostics) = Result.withoutDiagnostics (step s) := by
  have hslot' : s.withoutDiagnostics.slot = none := hslot
  rw [step_image, step_image]
  unfold State.fetch
  refine image_ite Fetched.image ?_ rfl
  simp only [hslot, hslot']
  rw [State.sample_withoutDiagnostics]
  exact s.sample.fetchTick_withoutDiagnostics

/-- What looks like a next state without the diagnostic registers is one. -/
theorem Result.next_of_withoutDiagnostics {r : Result} {t : State}
    (h : Result.withoutDiagnostics (.next t) = Result.withoutDiagnostics r) :
    ∃ t', r = .next t' ∧ t.withoutDiagnostics = t'.withoutDiagnostics := by
  cases r with
  | next t' => exact ⟨t', rfl, Host.Outcome.next.inj h⟩
  | fault r => cases h
  | refused r => cases h

end

/-- Settles O17: the two states have the same image, so by `step_withoutDiagnostics` their steps have. -/
theorem diagnosticsFeedNothing : Obligations.DiagnosticsFeedNothing := by
  intro s s' t hslot hsame h
  have hempty : s'.slot = none := (congrArg State.slot hsame).symm.trans hslot
  apply Result.next_of_withoutDiagnostics
  calc Result.withoutDiagnostics (.next t)
      = Result.withoutDiagnostics (step s) := by rw [h]
    _ = Result.withoutDiagnostics (step s.withoutDiagnostics) := (step_withoutDiagnostics s hslot).symm
    _ = Result.withoutDiagnostics (step s'.withoutDiagnostics) := by rw [hsame]
    _ = Result.withoutDiagnostics (step s') := step_withoutDiagnostics s' hempty

end Sys2Proof.Machine
end

