-- ==== Sys2Proof/Proofs/StatusViews.lean ====
section
/-! The phase that a step runs (R16, R69), and the four status bytes bit by bit (R26). -/

namespace Sys2Proof.Machine

/-! ### The phase in `PH` -/

theorem operation_of_decode_phase {p : Phase} {i : Instr} (h : decode (.phase p.code) = .ok i) : p.operation = some i := by
  cases p <;> cases h <;> rfl

/-- Settles O6: the operation whose word is the code in `PH` is the one that the tick fetches. -/
theorem stepRunsPhase : Obligations.StepRunsPhase := by
  intro s i hwf hslot hl hrst hdec
  have hop := operation_of_decode_phase hdec
  simp [step, State.fetch, State.fetchTick, hwf, hslot, hl, hrst, hop]

/-! ### The status bytes: their fields lie side by side, whatever the fields hold -/

section
variable (s : State)

theorem State.statusByte_bits :
    s.statusByte.getLsbD 0 = s.busy ∧ s.statusByte.getLsbD 1 = s.ok ∧ s.statusByte.getLsbD 2 = s.restartReq ∧
      s.statusByte.getLsbD 3 = s.inited ∧ s.statusByte.getLsbD 4 = s.busOwn ∧ s.statusByte.extractLsb' 5 3 = 0#3 := by
  unfold State.statusByte
  generalize s.busy = a, s.ok = b, s.restartReq = c, s.inited = d, s.busOwn = e
  revert a b c d e
  decide

theorem State.errByte_bits :
    s.errByte.extractLsb' 0 2 = s.errClass.code ∧ s.errByte.extractLsb' 2 4 = s.errPh.code ∧
      s.errByte.extractLsb' 6 2 = s.errTx.code := by
  unfold State.errByte
  generalize s.errClass.code = a, s.errPh.code = b, s.errTx.code = c
  revert a b c
  decide

theorem State.seqByte_bits :
    s.seqByte.extractLsb' 0 4 = s.ph.code ∧ s.seqByte.extractLsb' 4 2 = s.tx.code ∧
      s.seqByte.extractLsb' 6 2 = 0#2 := by
  unfold State.seqByte
  generalize s.ph.code = a, s.tx.code = b
  revert a b
  decide

theorem State.seqIdxByte_bits :
    s.seqIdxByte.extractLsb' 0 3 = s.idx ∧ s.seqIdxByte.getLsbD 3 = false ∧
      s.seqIdxByte.extractLsb' 4 3 = s.errIdx ∧ s.seqIdxByte.getLsbD 7 = false := by
  unfold State.seqIdxByte
  generalize s.idx = a, s.errIdx = b
  revert a b
  decide

end

/-- Settles O57: the read map shows the four bytes at `0x18` to `0x1B`. -/
theorem statusBytesLayout : Obligations.StatusBytesLayout := fun s =>
  ⟨s.statusByte_bits, s.errByte_bits, s.seqByte_bits, s.seqIdxByte_bits⟩

end Sys2Proof.Machine
end

