-- ==== Sys2Proof/Proofs/ReadPort.lean ====
section
/-! The read port has no side effect (R41, R47): no part of a tick reads the address on it. -/

namespace Sys2Proof

/-- The sampled levels with `addr` on the port `rd_addr` (R10). -/
def Inputs.withRdAddr (addr : BitVec 5) (x : Inputs) : Inputs := { x with rdAddr := addr }

end Sys2Proof

namespace Sys2Proof.Machine

/-! ### Replacing the levels on the ports -/

/-- The sampled levels replaced by `f`. -/
def State.mapInp (f : Inputs → Inputs) (s : State) : State := { s with inp := f s.inp }

/-- The outcome with the sampled levels of its next state replaced by `f`. -/
def Result.mapInp (f : Inputs → Inputs) : Result → Result
  | .next t => .next (t.mapInp f)
  | .fault r => .fault r
  | .refused r => .refused r

/-- `f` leaves the answer port alone: `drv_done`, `drv_status` and `drv_rdata` (R62). -/
def KeepsAnswerPort (f : Inputs → Inputs) : Prop :=
  ∀ x, (f x).drvDone = x.drvDone ∧ (f x).drvStatus = x.drvStatus ∧ (f x).drvRdata = x.drvRdata

/-- A choice between two images is the image of the choice. -/
theorem ite_eq_image {α β : Type} (g : α → β) {c : Prop} [Decidable c] {x y : β} {x' y' : α} (hx : x = g x')
    (hy : y = g y') : (if c then x else y) = g (if c then x' else y') := by
  rw [hx, hy, apply_ite g]

section
variable {f : Inputs → Inputs} (s : State)

/-! ### The operations read the answer port only -/

theorem State.complete_mapInp (b : Bool) : (s.mapInp f).complete b = (s.complete b).mapInp f := by
  have hph : (s.mapInp f).ph = s.ph := rfl
  unfold State.complete
  cases hp : s.ph <;> cases b <;> simp only [hph, hp] <;> rfl

theorem State.advance_mapInp (r : Byte) : (s.mapInp f).advance r = (s.advance r).mapInp f := by
  have htx : (s.mapInp f).tx = s.tx := rfl
  unfold State.advance
  cases hx : s.tx <;> simp only [htx, hx]
  case tStart => rfl
  case tAddr => exact ite_eq_image (mapInp f) rfl rfl
  case tData =>
    have hstop : (s.mapInp f).cfg.recvStop = s.cfg.recvStop := rfl
    refine ite_eq_image (mapInp f) (ite_eq_image (mapInp f) rfl ?_) (ite_eq_image (mapInp f) rfl ?_)
    · rw [← complete_mapInp, hstop]
      cases s.cfg.recvStop <;> rfl
    · rw [← complete_mapInp]
      rfl

theorem State.answerStep_mapInp (a : Answer) : (s.mapInp f).answerStep a = (s.answerStep a).mapInp f := by
  have hverify : verify a (expectedStatus (s.mapInp f).cfg (s.mapInp f).tx (s.mapInp f).ph.dir (s.mapInp f).idx.toNat) =
      verify a (expectedStatus s.cfg s.tx s.ph.dir s.idx.toNat) := rfl
  unfold State.answerStep
  rw [hverify]
  cases verify a (expectedStatus s.cfg s.tx s.ph.dir s.idx.toNat) with
  | pass r => exact s.advance_mapInp r
  | raise c => exact (s.failTransaction c).complete_mapInp false

theorem State.waitTick_mapInp (hf : KeepsAnswerPort f) : (s.mapInp f).waitTick = s.waitTick.mapInp f := by
  obtain ⟨hdone, hstatus, hrdata⟩ := hf s.inp
  have hinp : (s.mapInp f).inp = f s.inp := rfl
  unfold State.waitTick
  rw [hinp, hdone, hstatus, hrdata]
  exact ite_eq_image (mapInp f) (s.answerStep_mapInp _)
    (ite_eq_image (mapInp f) ({ s with tmr := 0 }.answerStep_mapInp _) rfl)

theorem State.transactionPhase_mapInp (hf : KeepsAnswerPort f) (p : Phase) :
    (s.mapInp f).transactionPhase p = Result.mapInp f (s.transactionPhase p) :=
  ite_eq_image _ rfl (ite_eq_image _ rfl (ite_eq_image _ (congrArg Host.Outcome.next (s.waitTick_mapInp hf)) rfl))

theorem exec_operation_mapInp (hf : KeepsAnswerPort f) {p : Phase} {i : Instr} (h : p.operation = some i) :
    exec i (s.mapInp f) = Result.mapInp f (exec i s) := by
  cases p <;> cases h
  case init | request | fetch => exact s.transactionPhase_mapInp hf _
  case decode => rfl
  case settle | sigchk | commit => exact ite_eq_image (Result.mapInp f) rfl rfl

theorem exec_command_mapInp {i : Instr} (h : i = .init ∨ i = .poll) :
    exec i (s.mapInp f) = Result.mapInp f (exec i s) := by
  rcases h with rfl | rfl <;> exact ite_eq_image (Result.mapInp f) rfl rfl

end

/-- The command port names no operation but the two commands (R60). -/
theorem command_of_decode_hostCmd {w : BitVec 2} {i : Instr} (h : decode (.hostCmd w) = .ok i) : i = .init ∨ i = .poll := by
  simp only [decode, decodeHostCmd] at h
  split at h
  · cases h; exact .inl rfl
  · split at h <;> cases h
    exact .inr rfl

/-! ### The address port -/

section
variable (addr : BitVec 5) (s : State)

theorem keepsAnswerPort_withRdAddr : KeepsAnswerPort (Inputs.withRdAddr addr) := fun _ => ⟨rfl, rfl, rfl⟩

/-- What a step does with what it fetched. -/
def Fetched.outcome : Fetched → Result
  | .run i s => exec i s
  | .quiet s => .next s
  | .refuse r => .refused r

theorem step_eq_outcome (hwf : s.cfg.wf = true) (hslot : s.slot = none) : step s = s.sample.fetchTick.outcome := by
  simp only [step, State.fetch, hwf, hslot, if_true]
  cases s.sample.fetchTick <;> rfl

theorem State.fetchCommand_withRdAddr :
    (s.mapInp (Inputs.withRdAddr addr)).fetchCommand.outcome =
      Result.mapInp (Inputs.withRdAddr addr) s.fetchCommand.outcome := by
  have hvalid : (s.mapInp (Inputs.withRdAddr addr)).inp.cmdValid = s.inp.cmdValid := rfl
  have hop : (s.mapInp (Inputs.withRdAddr addr)).inp.cmdOp = s.inp.cmdOp := rfl
  simp only [State.fetchCommand, hvalid, hop]
  split
  · cases hdec : decode (.hostCmd s.inp.cmdOp) with
    | ok i => exact exec_command_mapInp s (command_of_decode_hostCmd hdec)
    | error e => rfl
  · rfl

theorem State.fetchTick_withRdAddr :
    (s.mapInp (Inputs.withRdAddr addr)).fetchTick.outcome =
      Result.mapInp (Inputs.withRdAddr addr) s.fetchTick.outcome := by
  have hrst : (s.mapInp (Inputs.withRdAddr addr)).inp.rst = s.inp.rst := rfl
  have hl : (s.mapInp (Inputs.withRdAddr addr)).seqLegal = s.seqLegal := rfl
  have hph : (s.mapInp (Inputs.withRdAddr addr)).ph = s.ph := rfl
  simp only [State.fetchTick, hrst, hl, hph]
  split
  · rfl
  · split
    · cases hop : s.ph.operation with
      | some i => exact exec_operation_mapInp s (keepsAnswerPort_withRdAddr addr) hop
      | none => exact s.fetchCommand_withRdAddr addr
    · rfl

theorem step_withRdAddr {x : Inputs} {rest : List Inputs} (hwf : s.cfg.wf = true) (hslot : s.slot = none)
    (hinputs : s.inputs = x :: rest) :
    step { s with inputs := x.withRdAddr addr :: rest } = Result.mapInp (Inputs.withRdAddr addr) (step s) := by
  have hsample : ({ s with inputs := x.withRdAddr addr :: rest } : State).sample =
      s.sample.mapInp (Inputs.withRdAddr addr) := by
    simp only [State.sample, hinputs]
    rfl
  calc step { s with inputs := x.withRdAddr addr :: rest }
      = ({ s with inputs := x.withRdAddr addr :: rest } : State).sample.fetchTick.outcome := step_eq_outcome _ hwf hslot
    _ = Result.mapInp (Inputs.withRdAddr addr) s.sample.fetchTick.outcome := by
      rw [hsample, State.fetchTick_withRdAddr]
    _ = Result.mapInp (Inputs.withRdAddr addr) (step s) := by rw [step_eq_outcome s hwf hslot]

end

/-- Settles O16: no part of a tick reads `rd_addr`. -/
theorem readHasNoSideEffect : Obligations.ReadHasNoSideEffect := by
  intro s t x rest addr hslot hinputs h
  have hstep := step_withRdAddr addr s (step_cases hslot h).1 hslot hinputs
  rw [h] at hstep
  exact hstep

end Sys2Proof.Machine
end

