-- ==== Sys2Proof/Proofs/ReadMap.lean ====
section
/-! The read map (R40): the register at each address, what a store leaves of it, and the map as a list of cells. -/

namespace Sys2Proof.Machine

/-! ### What each address shows (R40) -/

section
variable (s : State) {addr : BitVec 5}

theorem State.memRead_ax (a : Fin 4) (h : addr.toNat = a.val) : s.memRead addr = s.report.ax[a] := by
  rw [State.memRead, h]
  fin_cases a <;> rfl

theorem State.memRead_trg (ht : s.cfg.hasTriggers = true) (k : Fin 2) (h : addr.toNat = 4 + k.val) :
    s.memRead addr = s.report.trg[k] := by
  rw [State.memRead, h]
  fin_cases k <;> exact if_pos ht

theorem State.memRead_btn (k : Fin 2) (h : addr.toNat = s.cfg.reportSize - 2 + k.val) :
    s.memRead addr = s.report.btn[k] := by
  rw [State.memRead, h]
  cases ht : s.cfg.hasTriggers <;> simp only [Config.reportSize, ht] <;> fin_cases k <;> rfl

theorem State.memRead_padding (hge : s.cfg.reportSize ≤ addr.toNat) (hlt : addr.toNat < 8) : s.memRead addr = 0x00#8 := by
  have h : s.cfg.hasTriggers = false ∧ (addr.toNat = 6 ∨ addr.toNat = 7) := by
    cases ht : s.cfg.hasTriggers <;> simp [Config.reportSize, ht] at hge ⊢ <;> omega
  obtain ⟨ht, h | h⟩ := h <;> simp [State.memRead, h, ht]

theorem State.memRead_raw (j : Fin 6) (h : addr.toNat = 0x08 + j.val) : s.memRead addr = s.raw[j] := by
  rw [State.memRead, h]
  fin_cases j <;> rfl

theorem State.memRead_zero (h : addr.toNat = 0x0E ∨ addr.toNat = 0x0F) : s.memRead addr = 0x00#8 := by
  rcases h with h | h <;> simp only [State.memRead, h]

theorem State.memRead_calMax (a : Fin 4) (h : addr.toNat = 0x10 + a.val) : s.memRead addr = s.calMax[a] := by
  rw [State.memRead, h]
  fin_cases a <;> rfl

theorem State.memRead_calMin (a : Fin 4) (h : addr.toNat = 0x14 + a.val) : s.memRead addr = s.calMin[a] := by
  rw [State.memRead, h]
  fin_cases a <;> rfl

/-- The four constants at the end of the map (R27). -/
theorem State.memRead_constant (k : Fin 4) (h : addr.toNat = 0x1C + k.val) :
    s.memRead addr =
      #v[BitVec.ofNat 8 s.cfg.reportSize, 0#1 ++ s.cfg.devAddr, s.cfg.brdiv, 0#6 ++ s.cfg.presc][k] := by
  rw [State.memRead, h]
  fin_cases k <;> rfl

end

theorem toList_of_two {α : Type} (v : Vector α 2) : v.toList = [v[0], v[1]] := by
  match v with
  | ⟨⟨[_, _]⟩, _⟩ => rfl

theorem toList_of_four {α : Type} (v : Vector α 4) : v.toList = [v[0], v[1], v[2], v[3]] := by
  match v with
  | ⟨⟨[_, _, _, _]⟩, _⟩ => rfl

/-- The report comes first, in the order of R66. -/
theorem State.memRead_reportBytes (s : State) {addr : BitVec 5} (h : addr.toNat < 8) :
    s.memRead addr = s.reportBytes.getD addr.toNat 0x00#8 := by
  rw [State.memRead, State.reportBytes, toList_of_two, toList_of_two, toList_of_four]
  generalize addr.toNat = n at h ⊢
  cases s.cfg.hasTriggers <;> interval_cases n <;> rfl

/-- Settles O56. -/
theorem readMapLayout : Obligations.ReadMapLayout := by
  intro s addr
  refine ⟨s.memRead_reportBytes, s.memRead_raw, s.memRead_zero, s.memRead_calMax, s.memRead_calMin,
    fun h => ?_, fun h => ?_, fun h => ?_, fun h => ?_⟩
  · rw [s.memRead_constant 0 h]
    cases ht : s.cfg.hasTriggers <;> simp [Config.reportSize, ht]
  · rw [s.memRead_constant 1 h]
    exact (BitVec.toNat_append 0#1 s.cfg.devAddr).trans (by simp)
  · exact s.memRead_constant 2 h
  · rw [s.memRead_constant 3 h]
    exact (BitVec.toNat_append 0#6 s.cfg.presc).trans (by simp)

/-! ### The addresses a store leaves -/

/-- The group of registers that an address shows a byte of. -/
theorem State.readAddress_cases (s : State) (addr : BitVec 5) :
    (∃ a : Fin 4, addr.toNat = a.val) ∨ (s.cfg.hasTriggers = true ∧ ∃ k : Fin 2, addr.toNat = 4 + k.val) ∨
    (∃ k : Fin 2, addr.toNat = s.cfg.reportSize - 2 + k.val) ∨ (s.cfg.reportSize ≤ addr.toNat ∧ addr.toNat < 8) ∨
    (∃ j : Fin 6, addr.toNat = 0x08 + j.val) ∨ (addr.toNat = 0x0E ∨ addr.toNat = 0x0F) ∨
    (∃ a : Fin 4, addr.toNat = 0x10 + a.val) ∨ (∃ a : Fin 4, addr.toNat = 0x14 + a.val) ∨
    (addr = 0x18#5 ∨ addr = 0x19#5 ∨ addr = 0x1A#5 ∨ addr = 0x1B#5) ∨ (∃ k : Fin 4, addr.toNat = 0x1C + k.val) := by
  unfold Config.reportSize
  cases s.cfg.hasTriggers <;> revert addr <;> decide

/-- Two states of one build show the same byte at an address if they agree in the register that is there. A register that
an operation does not write agrees by definition, so a use names only the hypotheses about the ones it writes. -/
theorem State.memRead_congr {s t : State} {addr : BitVec 5} (hcfg : t.cfg = s.cfg := by rfl)
    (hax : ∀ a : Fin 4, addr.toNat = a.val → t.report.ax[a] = s.report.ax[a] := by intros; rfl)
    (htrg : ∀ k : Fin 2, addr.toNat = 4 + k.val → t.report.trg[k] = s.report.trg[k] := by intros; rfl)
    (hbtn : ∀ k : Fin 2, addr.toNat = s.cfg.reportSize - 2 + k.val → t.report.btn[k] = s.report.btn[k] := by intros; rfl)
    (hraw : ∀ j : Fin 6, addr.toNat = 0x08 + j.val → t.raw[j] = s.raw[j] := by intros; rfl)
    (hmax : ∀ a : Fin 4, addr.toNat = 0x10 + a.val → t.calMax[a] = s.calMax[a] := by intros; rfl)
    (hmin : ∀ a : Fin 4, addr.toNat = 0x14 + a.val → t.calMin[a] = s.calMin[a] := by intros; rfl)
    (hstatus : addr = 0x18#5 → t.statusByte = s.statusByte := by intros; rfl)
    (herr : t.errByte = s.errByte := by rfl) (hseq : t.seqByte = s.seqByte := by rfl)
    (hidx : t.seqIdxByte = s.seqIdxByte := by rfl) : t.memRead addr = s.memRead addr := by
  rcases s.readAddress_cases addr with ⟨a, h⟩ | ⟨ht, k, h⟩ | ⟨k, h⟩ | ⟨hge, hlt⟩ | ⟨j, h⟩ | h | ⟨a, h⟩ | ⟨a, h⟩ |
    (h | rfl | rfl | rfl) | ⟨k, h⟩
  · rw [t.memRead_ax a h, s.memRead_ax a h, hax a h]
  · rw [t.memRead_trg (hcfg ▸ ht) k h, s.memRead_trg ht k h, htrg k h]
  · rw [t.memRead_btn k (hcfg ▸ h), s.memRead_btn k h, hbtn k h]
  · rw [t.memRead_padding (hcfg ▸ hge) hlt, s.memRead_padding hge hlt]
  · rw [t.memRead_raw j h, s.memRead_raw j h, hraw j h]
  · rw [t.memRead_zero h, s.memRead_zero h]
  · rw [t.memRead_calMax a h, s.memRead_calMax a h, hmax a h]
  · rw [t.memRead_calMin a h, s.memRead_calMin a h, hmin a h]
  · subst h
    exact hstatus rfl
  · exact herr
  · exact hseq
  · exact hidx
  · rw [t.memRead_constant k h, s.memRead_constant k h, hcfg]

/-- `SETBTN` writes the button byte that holds bit `i` (R160). -/
theorem setButton_getElem_of_ne (btn : Vector Byte 2) (i : BitVec 4) (v : Bool) (k : Fin 2) (hk : k.val ≠ i.toNat / 8) :
    (setButton btn i v)[k] = btn[k] := by
  unfold setButton
  split
  · obtain rfl : k = 1 := by omega
    rfl
  · obtain rfl : k = 0 := by omega
    rfl

/-- `FIELD` answers in the latch alone (log entry 6). -/
theorem exec_field_latch {f : BitVec 3} {s t : State} (h : exec (.field f) s = .next t) : ∃ l, t = { s with latch := l } := by
  simp only [exec, execField] at h
  split at h
  · cases h
    exact ⟨_, rfl⟩
  · split at h
    · split at h <;> cases h
      exact ⟨_, rfl⟩
    · cases h

/-- Settles O59: each operation by the registers it writes. -/
theorem readMapFrames : Obligations.ReadMapFrames := by
  intro s t addr
  refine ⟨fun f h => ?field, fun a h => ?center, fun b h => ?write, fun b h => ?read, fun h hne => ?start,
    fun h hne => ?stop, fun i h hne => ?dec, fun a h hmax hmin => ?cal, fun k h hne => ?trig, fun i v h hne => ?setbtn,
    fun h hlo hhi => ?pack⟩
  case field =>
    obtain ⟨l, rfl⟩ := exec_field_latch h
    exact State.memRead_congr
  case center | write | read =>
    cases h
    exact State.memRead_congr
  case start | stop =>
    cases h
    exact State.memRead_congr (hstatus := fun ha => absurd ha hne)
  case dec =>
    simp only [exec, execDec] at h
    split at h <;> cases h
    next hi => exact State.memRead_congr (hraw := fun j hj => Vector.getElem_set_ne hi _ (by omega))
  case cal =>
    simp only [exec, execCal] at h
    split at h <;> cases h
    exact State.memRead_congr
      (hmax := fun j hj => Vector.getElem_set_ne a.isLt _ (by omega))
      (hmin := fun j hj => Vector.getElem_set_ne a.isLt _ (by omega))
  case trig =>
    simp only [exec, execTrig] at h
    split at h <;> cases h
    exact State.memRead_congr (htrg := fun j hj => Vector.getElem_set_ne k.isLt _ (by omega))
  case setbtn =>
    cases h
    exact State.memRead_congr (hbtn := fun k hk => setButton_getElem_of_ne _ _ _ _ (by omega))
  case pack =>
    have hsize : 2 ≤ s.cfg.reportSize := by
      unfold Config.reportSize
      split <;> decide
    cases h
    exact State.memRead_congr (hbtn := fun k hk => by omega)

/-! ### The list of cells (log entry 23) -/

section
variable (s : State)

/-- The cell that the read map lists for an address, if it lists one. -/
def State.cell (a : BitVec 5) : Option Host.Cell :=
  if s.memRead a = 0x00#8 then none else some (a.toNat, s.memRead a)

theorem State.readMap_eq_filterMap_cell : s.readMap = readAddresses.filterMap s.cell := rfl

/-- A byte that reads 0x00 is not listed, and an unlisted byte reads 0x00, so leaving it out changes no answer. -/
theorem State.read_filterMap_cell (as : List (BitVec 5)) (a : BitVec 5) :
    Memory.read (as.filterMap s.cell) a.toNat = if a ∈ as then s.memRead a else 0x00#8 := by
  induction as with
  | nil => rfl
  | cons b as ih =>
    by_cases hz : s.memRead b = 0x00#8
    · have hskip : s.cell b = none := if_pos hz
      rw [List.filterMap_cons_none hskip, ih]
      by_cases hab : a = b
      · simp [hab, hz]
      · simp [hab]
    · have hlist : s.cell b = some (b.toNat, s.memRead b) := if_neg hz
      rw [List.filterMap_cons_some hlist]
      by_cases hab : a = b
      · simp [hab, Memory.read]
      · have hne : (a.toNat == b.toNat) = false := by simpa [BitVec.toNat_inj] using hab
        simpa [Memory.read, List.lookup_cons, hne, hab] using ih

end

theorem mem_readAddresses (a : BitVec 5) : a ∈ readAddresses := by
  revert a
  decide

/-- Settles O58: every address is among the addresses of the read map. -/
theorem readMapCellsAgree : Obligations.ReadMapCellsAgree := by
  intro s addr
  rw [s.readMap_eq_filterMap_cell, s.read_filterMap_cell, if_pos (mem_readAddresses addr)]

end Sys2Proof.Machine
end

