-- ==== Sys2Proof/Proofs/Encoding.lean ====
section
/-! The six formats (R60 to R63, R69, R70): a word is its fields side by side, so that decoding and encoding are inverse to each
other; the five forms of a driver word; and the word that a step takes from the slot. -/

namespace Sys2Proof

/-! ### Words and their fields -/

/-- Three fields that a word shows at their places are the whole word. -/
theorem append_eq_of_fields {a b c : Nat} {w : BitVec (a + b + c)} {x : BitVec a} {y : BitVec b} {z : BitVec c}
    (hx : w.extractLsb' (b + c) a = x) (hy : w.extractLsb' c b = y) (hz : w.extractLsb' 0 c = z) : x ++ y ++ z = w := by
  rw [← hx, ← hy, ← hz, BitVec.extractLsb'_append_extractLsb'_eq_extractLsb' (Nat.add_comm b c),
    BitVec.extractLsb'_append_extractLsb']

theorem extractLsb'_one_eq_ofBool {n : Nat} (w : BitVec n) (k : Nat) : w.extractLsb' k 1 = BitVec.ofBool (w.getLsbD k) := by
  ext i hi
  obtain rfl : i = 0 := by omega
  simp

section
variable (op : BitVec 2) (ack : Bool) (wdata : Byte)

theorem drvWord_op : (drvWord op ack wdata).extractLsb' 9 2 = op :=
  (BitVec.extractLsb'_append_eq_of_le (by decide)).trans BitVec.extractLsb'_append_eq_left

theorem drvWord_ack : (drvWord op ack wdata).getLsbD 8 = ack :=
  BitVec.getLsbD_append.trans (BitVec.getLsbD_append.trans (by simp))

theorem drvWord_wdata : (drvWord op ack wdata).extractLsb' 0 8 = wdata :=
  BitVec.extractLsb'_append_eq_right

end

theorem exists_eq_drvWord (w : DrvWord) : ∃ op ack wdata, w = drvWord op ack wdata :=
  ⟨_, _, _, (append_eq_of_fields rfl (extractLsb'_one_eq_ofBool w 8) rfl).symm⟩

/-- The answer word of R62 with `drv_done = 1`. -/
def doneWord (status rdata : Byte) : BitVec 17 := 1#1 ++ status ++ rdata

section
variable (status rdata : Byte)

theorem encode_wait : encode (.wait status rdata) = .drvRsp (doneWord status rdata) := rfl

theorem doneWord_done : (doneWord status rdata).getLsbD 16 = true :=
  BitVec.getLsbD_append.trans (BitVec.getLsbD_append.trans (by simp))

theorem doneWord_status : (doneWord status rdata).extractLsb' 8 8 = status :=
  (BitVec.extractLsb'_append_eq_of_le (by decide)).trans BitVec.extractLsb'_append_eq_right

theorem doneWord_rdata : (doneWord status rdata).extractLsb' 0 8 = rdata :=
  BitVec.extractLsb'_append_eq_right

end

theorem addrByte_address (a : BitVec 7) (dir : Bool) : (addrByte a dir).extractLsb' 1 7 = a :=
  BitVec.extractLsb'_append_eq_left

theorem addrByte_direction (a : BitVec 7) (dir : Bool) : (addrByte a dir).getLsbD 0 = dir :=
  BitVec.getLsbD_append.trans (by simp)

theorem exists_eq_addrByte (w : Byte) : ∃ a dir, w = addrByte a dir :=
  ⟨w.extractLsb' 1 7, w.getLsbD 0, by
    rw [addrByte, ← extractLsb'_one_eq_ofBool]
    exact (BitVec.extractLsb'_append_extractLsb' (w := 7) (len := 1)).symm⟩

/-! ### Decoding an encoded operation -/

/-- Settles O1: the decoder of each format finds the fields where the encoder put them. -/
theorem decodeOfEncode : Obligations.DecodeOfEncode := by
  intro i hwf
  cases i
  case init | poll | phInit | phRequest | phSettle | phFetch | phDecode | phSigchk | phCommit | pack => rfl
  case start | write | read | stop =>
    simp only [decode, encode, decodeDrvCmd, drvWord_op, drvWord_ack, drvWord_wdata]
    rfl
  case wait status rdata =>
    simp only [encode_wait, decode, decodeDrvRsp, doneWord_done, doneWord_status, doneWord_rdata, if_true]
  case send | receive =>
    simp only [decode, encode, decodeAddrByte, addrByte_address, addrByte_direction]
    rfl
  case dec n | field n =>
    revert n
    decide
  case center a | cal a | trig a =>
    revert a
    decide
  case setbtn n v =>
    revert n v
    decide

/-! ### Encoding a decoded operation, format by format -/

section
variable {i : Instr}

theorem encode_of_decodeHostCmd {w : BitVec 2} (h : decodeHostCmd w = .ok i) : i.wellFormed = true ∧ encode i = .hostCmd w := by
  simp only [decodeHostCmd] at h
  split_ifs at h <;> cases h <;> subst w <;> exact ⟨rfl, rfl⟩

theorem encode_of_decodeDrvCmd {w : DrvWord} (h : decodeDrvCmd w = .ok i) : i.wellFormed = true ∧ encode i = .drvCmd w := by
  obtain ⟨op, ack, wdata, rfl⟩ := exists_eq_drvWord w
  simp only [decodeDrvCmd, drvWord_op, drvWord_ack, drvWord_wdata] at h
  split_ifs at h with hstart hwrite hread hstop <;> cases h
  · obtain ⟨rfl, rfl, rfl⟩ := hstart
    exact ⟨rfl, rfl⟩
  · obtain ⟨rfl, rfl⟩ := hwrite
    exact ⟨rfl, rfl⟩
  · obtain ⟨rfl, rfl⟩ := hread
    exact ⟨rfl, rfl⟩
  · obtain ⟨rfl, rfl, rfl⟩ := hstop
    exact ⟨rfl, rfl⟩

theorem encode_of_decodeDrvRsp {w : BitVec 17} (h : decodeDrvRsp w = .ok i) : i.wellFormed = true ∧ encode i = .drvRsp w := by
  simp only [decodeDrvRsp] at h
  split_ifs at h with hdone
  cases h
  have hflag : w.extractLsb' 16 1 = 1#1 := by rw [extractLsb'_one_eq_ofBool, hdone]; rfl
  exact ⟨rfl, congrArg _ (append_eq_of_fields hflag rfl rfl)⟩

theorem encode_of_decodeAddrByte {w : Byte} (h : decodeAddrByte w = .ok i) : i.wellFormed = true ∧ encode i = .addrByte w := by
  obtain ⟨a, dir, rfl⟩ := exists_eq_addrByte w
  simp only [decodeAddrByte, addrByte_address, addrByte_direction] at h
  cases dir <;> cases h <;> exact ⟨rfl, rfl⟩

theorem encode_of_decodePhase {w : BitVec 4} (h : decodePhase w = .ok i) : i.wellFormed = true ∧ encode i = .phase w := by
  simp only [decodePhase] at h
  split_ifs at h <;> cases h <;> subst w <;> exact ⟨rfl, rfl⟩

/-- `op`, the argument bits that are 0 and the argument are the word; `SETBTN` has two arguments, `PACK` none (R70). -/
theorem encode_of_decodeDpop {w : BitVec 8} (h : decodeDpop w = .ok i) : i.wellFormed = true ∧ encode i = .dpop w := by
  simp only [decodeDpop] at h
  split_ifs at h with hdec hzero hlt hfield hzero hlt hcenter hzero hcal hzero htrig hzero hsetbtn hpack hzero <;> cases h
  · exact ⟨decide_eq_true hlt, congrArg _ (append_eq_of_fields hdec hzero rfl :)⟩
  · exact ⟨decide_eq_true hlt, congrArg _ (append_eq_of_fields hfield hzero rfl :)⟩
  · exact ⟨rfl, congrArg _ (append_eq_of_fields hcenter hzero rfl :)⟩
  · exact ⟨rfl, congrArg _ (append_eq_of_fields hcal hzero rfl :)⟩
  · exact ⟨rfl, congrArg _ (append_eq_of_fields htrig hzero rfl :)⟩
  · exact ⟨rfl, congrArg _ (append_eq_of_fields hsetbtn (rfl : w.extractLsb' 1 4 = _) (extractLsb'_one_eq_ofBool w 0) :)⟩
  · exact ⟨rfl, congrArg _ (append_eq_of_fields (b := 0) hpack BitVec.of_length_zero hzero :)⟩

end

/-- Settles O2: each format's decoder reads only words that `encode` builds. -/
theorem encodeOfDecode : Obligations.EncodeOfDecode := by
  intro w i h
  cases w with
  | hostCmd => exact encode_of_decodeHostCmd h
  | drvCmd => exact encode_of_decodeDrvCmd h
  | drvRsp => exact encode_of_decodeDrvRsp h
  | addrByte => exact encode_of_decodeAddrByte h
  | phase => exact encode_of_decodePhase h
  | dpop => exact encode_of_decodeDpop h

/-- Settles O3: each word is the encoding of the operation it names. -/
theorem specWordsDecode : Obligations.SpecWordsDecode :=
  ⟨decodeOfEncode .init rfl, decodeOfEncode .poll rfl, decodeOfEncode (.write 0xA4#8) rfl, decodeOfEncode (.read true) rfl,
    decodeOfEncode (.wait 0x50#8 0x11#8) rfl, decodeOfEncode (.receive 0x52#7) rfl, decodeOfEncode .phCommit rfl,
    decodeOfEncode (.setbtn 9#4 true) rfl⟩

end Sys2Proof

namespace Sys2Proof.Machine

/-! ### The driver words -/

theorem isDriverForm_of_encode {i : Instr} {w : DrvWord} (h : encode i = .drvCmd w) : IsDriverForm w := by
  cases i <;> cases h
  case start => exact isDriverForm_start
  case write b => exact isDriverForm_write b
  case read ack => exact isDriverForm_read ack
  case stop => exact isDriverForm_stop

theorem drvWord_write (b : Byte) : drvWord 0b01#2 false b = 0x200#11 ||| b.setWidth 11 := by
  revert b
  decide

/-- Settles O4: a word that names a command is that command's encoding, and the encodings are the five forms. -/
theorem driverWordsAreFive : Obligations.DriverWordsAreFive := by
  intro w
  constructor
  · rintro ⟨i, h⟩
    exact isDriverForm_of_encode (encodeOfDecode _ i h).2
  · rintro (rfl | ⟨b, rfl⟩ | rfl | rfl | rfl)
    · exact ⟨.start, decodeOfEncode .start rfl⟩
    · exact ⟨.write b, drvWord_write b ▸ decodeOfEncode (.write b) rfl⟩
    · exact ⟨.read true, decodeOfEncode (.read true) rfl⟩
    · exact ⟨.read false, decodeOfEncode (.read false) rfl⟩
    · exact ⟨.stop, decodeOfEncode .stop rfl⟩

/-! ### The slot -/

/-- Settles O5: in a build that exists a filled slot is what the step fetches. -/
theorem stepRunsPlacedWord : Obligations.StepRunsPlacedWord := by
  intro s w i hwf hslot hdec
  simp [step, State.fetch, State.fetchSlot, hwf, hslot, hdec]

end Sys2Proof.Machine
end

