-- ==== Sys2Proof/Proofs/Fields.lean ====
section
/-! The six analog fields by the numbers (R67), the answer of `FIELD` (R141), and the status that each wait expects (R71). -/

namespace Sys2Proof.Machine

/-! ### Fields as numbers -/

theorem toNat_append_eq_add {m n : Nat} (x : BitVec m) (y : BitVec n) : (x ++ y).toNat = 2 ^ n * x.toNat + y.toNat := by
  rw [BitVec.toNat_append, ← Nat.shiftLeft_add_eq_or_of_lt y.isLt, Nat.shiftLeft_eq, Nat.mul_comm]

/-- A fragment at the top of a byte: the shift drops no bit of it. -/
theorem toNat_setWidth_shiftLeft {n k : Nat} (h : n + k = 8) (x : BitVec n) :
    (x.setWidth 8 <<< k).toNat = 2 ^ k * x.toNat := by
  have hlt : x.toNat <<< k < 2 ^ 8 := by
    rw [← h, Nat.shiftLeft_eq, Nat.pow_add]
    exact Nat.mul_lt_mul_of_pos_right x.isLt (Nat.two_pow_pos k)
  rw [BitVec.toNat_shiftLeft, BitVec.toNat_setWidth_of_le (by omega), Nat.mod_eq_of_lt hlt, Nat.shiftLeft_eq, Nat.mul_comm]

section
variable (d : Vector Byte 6)

theorem fieldF0_toNat : (fieldF0 d).toNat = 4 * (d[0].toNat % 64) :=
  toNat_setWidth_shiftLeft rfl _

theorem fieldF1_toNat : (fieldF1 d).toNat = 4 * (d[1].toNat % 64) :=
  toNat_setWidth_shiftLeft rfl _

theorem fragmentA2_toNat : (fragmentA2 d).toNat = 8 * (d[0].toNat / 64) + 2 * (d[1].toNat / 64) + d[2].toNat / 128 := by
  rw [fragmentA2, toNat_append_eq_add, toNat_append_eq_add]
  simp only [BitVec.extractLsb'_toNat, Nat.shiftRight_eq_div_pow]
  omega

theorem fieldF2_toNat :
    (fieldF2 d).toNat = 8 * (8 * (d[0].toNat / 64) + 2 * (d[1].toNat / 64) + d[2].toNat / 128) := by
  rw [← fragmentA2_toNat]
  exact toNat_setWidth_shiftLeft rfl _

theorem fieldF3_toNat : (fieldF3 d).toNat = 8 * (d[2].toNat % 32) :=
  toNat_setWidth_shiftLeft rfl _

theorem fragmentLT_toNat : (fragmentLT d).toNat = 8 * (d[2].toNat / 32 % 4) + d[3].toNat / 32 := by
  rw [fragmentLT, toNat_append_eq_add]
  simp only [BitVec.extractLsb'_toNat, Nat.shiftRight_eq_div_pow]
  omega

theorem fieldT0_toNat : (fieldT0 d).toNat = 8 * (8 * (d[2].toNat / 32 % 4) + d[3].toNat / 32) := by
  rw [← fragmentLT_toNat]
  exact toNat_setWidth_shiftLeft rfl _

theorem fieldT1_toNat : (fieldT1 d).toNat = 8 * (d[3].toNat % 32) :=
  toNat_setWidth_shiftLeft rfl _

end

/-! ### `FIELD` -/

/-- The value that `FIELD f` latches: the axes first, then the triggers (R67, R141). -/
def fieldValue (d : Vector Byte 6) (f : BitVec 3) : Byte :=
  if h : f.toNat < 4 then axisField d ⟨f.toNat, h⟩
  else if h : f.toNat - 4 < 2 then triggerField d ⟨f.toNat - 4, h⟩
  else 0x00#8

theorem exec_field_eq {s : State} {f : BitVec 3} (hf : f.toNat < 4 ∨ (f.toNat < 6 ∧ s.cfg.hasTriggers = true)) :
    exec (.field f) s = .next { s with latch := { s.latch with field := fieldValue s.raw f } } := by
  by_cases haxis : f.toNat < 4
  · simp [exec, execField, fieldValue, haxis]
  · obtain ⟨hlt, htrig⟩ := hf.resolve_left haxis
    have htrigger : f.toNat - 4 < 2 := by omega
    simp [exec, execField, fieldValue, haxis, htrigger, htrig]

/-- Settles O46: the latched value of each field number is the field of R67. -/
theorem fieldAssembles : Obligations.FieldAssembles := by
  intro s f hf
  refine ⟨_, exec_field_eq hf, rfl, ?_, ?_, ?_, ?_, ?_, ?_⟩ <;> rintro rfl
  · exact fieldF0_toNat s.raw
  · exact fieldF1_toNat s.raw
  · exact fieldF2_toNat s.raw
  · exact fieldF3_toNat s.raw
  · exact fieldT0_toNat s.raw
  · exact fieldT1_toNat s.raw

/-! ### The expected status -/

/-- Settles O28: the sixth received byte is the one after which `receiveLength` is reached. -/
theorem statusClasses : Obligations.StatusClasses := by
  intro c st
  refine ⟨?start, ?sendAddress, ?receiveAddress, ?sentByte, ?receivedByte, ?lastByte⟩
  case receivedByte =>
    intro k hk
    have hmore : k + 1 < receiveLength := by unfold receiveLength; omega
    simp [expectedStatus, hmore]
  all_goals simp [expectedStatus, receiveLength]

end Sys2Proof.Machine
end

