-- ==== Sys2Proof/Proofs/BusDriver.lean ====
section
/-! The bus driver: the four commands (R90 to R93), a tick of a wait (R94, R250), and the abort path (R95, R203, R204). -/

namespace Sys2Proof.Machine

/-! ### The driver commands -/

/-- Settles O27: each command's `drvWord` is the word that R90 to R93 give. -/
theorem driverCommandsIssue : Obligations.DriverCommandsIssue := by
  refine fun s => ⟨rfl, fun b => ?write, rfl, rfl, rfl⟩
  case write =>
    rw [← drvWord_write]
    rfl

/-! ### A tick of a wait, and the abort path -/

section
variable {s : State}

theorem State.answerStep_of_mismatch {st : Byte} (rd : Byte)
    (hst : st ∉ expectedStatus s.cfg s.tx s.ph.dir s.idx.toNat) :
    s.answerStep (.done st rd) = s.abort .busPhaseError := by
  simpa [hst] using s.answerStep_cases (.done st rd)

/-- The abort path register by register (R203, R204). -/
theorem State.abort_registers (c : ErrClass) (htr : s.ph.transacts = true) :
    s.abort c = { s with
      ph := .idle, tx := .tOff, idx := 0#3, ok := false, busOwn := false, done := true, errClass := c, errPh := s.ph,
      errTx := s.tx, errIdx := s.idx, drvValid := true, drvCmd := 0x600#11, trace := s.trace ++ [0x600#11],
      latch := { s.latch with result := false } } :=
  State.abort_eq c htr

theorem State.waitTick_of_answer (hdone : s.inp.drvDone = true) :
    s.waitTick = s.answerStep (.done s.inp.drvStatus s.inp.drvRdata) := by
  simpa [hdone] using s.waitTick_cases

theorem State.waitTick_of_two_le (hwait : s.inp.drvDone = false) (hmore : 2 ≤ s.tmr) :
    s.waitTick = { s with tmr := s.tmr - 1 } := by
  have hleft : ¬ s.tmr ≤ 1 := by omega
  simpa [hwait, hmore, hleft] using s.waitTick_cases

theorem State.waitTick_of_le_one (hwait : s.inp.drvDone = false) (hlast : s.tmr ≤ 1) :
    s.waitTick = { s with tmr := 0 }.abort .busTimeoutError := by
  have hout : ¬ 2 ≤ s.tmr := by omega
  simpa [hwait, hlast, hout] using s.waitTick_cases

/-! ### Both operations in a legal state with a transaction -/

theorem exec_wait_of_legal (hl : s.seqLegal = true) (hrun : s.tx ≠ .tOff) (st rd : Byte) :
    exec (.wait st rd) s = .next (s.answerStep (.done st rd)) := by
  simp [exec, execWait, hrun, hl]

theorem exec_of_transacts {p : Phase} {i : Instr} (htr : p.transacts = true) (hop : p.operation = some i) :
    exec i s = s.transactionPhase p := by
  rcases p.transacts_iff.mp htr with rfl | rfl | rfl <;> cases hop <;> rfl

theorem exec_operation_of_legal {i : Instr} (hl : s.seqLegal = true) (hrun : s.tx ≠ .tOff)
    (hop : s.ph.operation = some i) : exec i s = .next s.waitTick := by
  rw [exec_of_transacts (State.transacts_of_legal hl hrun) hop]
  simp [State.transactionPhase, hrun, hl]

end

/-- Settles O29: the mismatch raises the bus phase error, and the abort path is the whole of the step. -/
theorem mismatchAborts : Obligations.MismatchAborts := by
  intro s st rd hl hrun hst
  rw [exec_wait_of_legal hl hrun, State.answerStep_of_mismatch rd hst,
    State.abort_registers _ (State.transacts_of_legal hl hrun)]

/-- Settles O38: the phase's operation is one tick of its wait, in its three cases. -/
theorem transactionPhaseTick : Obligations.TransactionPhaseTick := by
  intro s i hl hrun hdec
  rw [exec_operation_of_legal hl hrun (operation_of_decode_phase hdec)]
  refine ⟨fun hdone => ?answer, fun hwait hmore => ?count, fun hwait hlast => ?timeOut⟩
  case answer => rw [State.waitTick_of_answer hdone, exec_wait_of_legal hl hrun]
  case count => rw [State.waitTick_of_two_le hwait hmore]
  case timeOut =>
    rw [State.waitTick_of_le_one hwait hlast.le,
      State.abort_registers (s := { s with tmr := 0 }) _ (State.transacts_of_legal hl hrun)]

end Sys2Proof.Machine
end

