-- ==== Sys2Proof/Proofs/ClockDivider.lean ====
section
/-! The clock divider of a build (R120): the tests for the four prescaler indices are taken in rising order. -/

namespace Sys2Proof

section
variable {c : Config} {d : Byte} {p : BitVec 2}

/-- The tests for the four prescaler indices come in rising order, so each index before the chosen one has failed. -/
theorem Config.least_of_divider (h : c.divider = some (d, p)) :
    1 ≤ c.fBus ∧ 16 ≤ c.fClk / c.fBus ∧ c.divisor p.toNat = d.toNat ∧ ∀ k, k < p.toNat → 255 < c.divisor k := by
  unfold Config.divider at h
  split_ifs at h with hnone h0 h1 h2 h3 <;> cases h
  all_goals
    refine ⟨by omega, by omega, ?fits, fun k hk => ?least⟩
    case fits =>
      rw [BitVec.toNat_ofNat (c.divisor _), Nat.mod_eq_of_lt (Nat.lt_succ_of_le ‹_›)]
      rfl
    case least =>
      simp only [BitVec.toNat_ofNat] at hk
      interval_cases k <;> omega

/-- The test of an index whose divisor is a byte passes. -/
theorem Config.divider_eq_some (hbus : 1 ≤ c.fBus) (hratio : 16 ≤ c.fClk / c.fBus) (hfit : c.divisor p.toNat = d.toNat)
    (hleast : ∀ k, k < p.toNat → 255 < c.divisor k) : c.divider = some (d, p) := by
  have hbuilt : ¬ (c.fBus = 0 ∨ c.fClk / c.fBus < 16) := by omega
  have hskip : ∀ k, k < p.toNat → ¬ c.divisor k ≤ 255 := fun k hk => Nat.not_le.mpr (hleast k hk)
  have hle : d.toNat ≤ 255 := Nat.le_of_lt_succ d.isLt
  unfold Config.divider
  rw [if_neg hbuilt]
  obtain ⟨k, hk⟩ := p
  change c.divisor k = d.toNat at hfit
  interval_cases k <;> simp [hfit, hle, hskip]

end

end Sys2Proof

namespace Sys2Proof.Machine

/-- Settles O60, one lemma for each direction. -/
theorem dividerIsLeastFit : Obligations.DividerIsLeastFit := fun _ _ _ =>
  ⟨Config.least_of_divider, fun ⟨hbus, hratio, hfit, hleast⟩ => Config.divider_eq_some hbus hratio hfit hleast⟩

end Sys2Proof.Machine
end

