-- ==== Sys2Proof/Proofs/AnsweredWait.lean ====
section
/-! The transaction phases (R114 to R117): how a transaction begins, and what follows a verified answer at each of its
positions. -/

namespace Sys2Proof.Machine

/-! ### What follows a verified answer, position by position -/

section
variable {s : State} (r : Byte)

theorem State.advance_start (hx : s.tx = .tStart) (hi : s.idx = 0#3) :
    s.advance r = { s.issueWrite (addrByte s.cfg.devAddr s.ph.dir) with tx := .tAddr, idx := 0#3 } := by
  simp only [State.advance, hx]
  rw [← hi]
  rfl

theorem State.advance_sendAddress (hx : s.tx = .tAddr) (hd : s.ph.dir = false) {b : Byte}
    (hb : s.ph.sendBytes.getD 0 0x00#8 = b) : s.advance r = { s.issueWrite b with tx := .tData, idx := 0#3 } := by
  simp only [State.advance, hx, hd, hb, Bool.false_eq_true, if_false]

theorem State.advance_receiveAddress (hx : s.tx = .tAddr) (hd : s.ph.dir = true) :
    s.advance r = { s.issueRead true with tx := .tData, idx := 0#3 } := by
  simp only [State.advance, hx, hd, if_true]
  rfl

theorem State.advance_sent (hx : s.tx = .tData) (hd : s.ph.dir = false)
    (hmore : s.idx.toNat + 1 < s.ph.sendBytes.length) {b : Byte}
    (hb : s.ph.sendBytes.getD (s.idx.toNat + 1) 0x00#8 = b) :
    s.advance r = { s.issueWrite b with tx := .tData, idx := s.idx + 1#3 } := by
  simp only [State.advance, hx, hd, hmore, hb, Bool.false_eq_true, if_false, if_true]
  rw [← hx]
  rfl

theorem State.advance_sentLast (hx : s.tx = .tData) (hd : s.ph.dir = false)
    (hlast : s.ph.sendBytes.length ≤ s.idx.toNat + 1) :
    s.advance r = (s.issueStop.endTransaction true).complete true := by
  simp only [State.advance, hx, hd, Nat.not_lt.mpr hlast, Bool.false_eq_true, if_false]

theorem State.advance_received (hx : s.tx = .tData) (hd : s.ph.dir = true) (hmore : s.idx.toNat + 1 < receiveLength) :
    s.advance r =
      { { s with raw := s.raw.setIfInBounds s.idx.toNat r }.issueRead (decide (s.idx.toNat + 2 < receiveLength)) with
        tx := .tData, idx := s.idx + 1#3 } := by
  simp only [State.advance, hx, hd, hmore, if_true]
  rw [← hx]
  rfl

theorem State.advance_receivedLast (hx : s.tx = .tData) (hd : s.ph.dir = true) (hlast : receiveLength ≤ s.idx.toNat + 1)
    {t : State} (ht : t = { s with raw := s.raw.setIfInBounds s.idx.toNat r }) :
    s.advance r = ((if s.cfg.recvStop then t.issueStop else t).endTransaction true).complete true := by
  simp only [State.advance, hx, hd, ht, Nat.not_lt.mpr hlast, if_true, if_false]

theorem State.answerStep_of_expected {st : Byte} (hst : st ∈ expectedStatus s.cfg s.tx s.ph.dir s.idx.toNat) :
    s.answerStep (.done st r) = s.advance r := by
  simpa [hst] using s.answerStep_cases (.done st r)

theorem exec_wait_of_expected {st : Byte} (hl : s.seqLegal = true) (hrun : s.tx ≠ .tOff)
    (hst : st ∈ expectedStatus s.cfg s.tx s.ph.dir s.idx.toNat) : exec (.wait st r) s = .next (s.advance r) := by
  rw [exec_wait_of_legal hl hrun, State.answerStep_of_expected r hst]

end

/-! ### `Complete(true)`, phase by phase -/

section
variable {s : State}

theorem State.complete_of_init (hp : s.ph = .init) : s.complete true = { s.finish true with inited := true } := by
  simp only [State.complete, hp]

theorem State.complete_of_request (hp : s.ph = .request) :
    s.complete true = { s with ph := .settle, tmr := s.cfg.settle } := by
  simp only [State.complete, hp]

theorem State.complete_of_fetch (hp : s.ph = .fetch) : s.complete true = { s with ph := .decode } := by
  simp only [State.complete, hp]

end

/-! ### The statements -/

/-- Settles O37: with `TX` off the phase's operation is `Begin`. -/
theorem transactionPhasesBegin : Obligations.TransactionPhasesBegin := by
  rintro s p i (⟨rfl, rfl⟩ | ⟨rfl, rfl⟩ | ⟨rfl, rfl⟩) hx <;> exact if_pos hx

theorem addressWord_toNat (a : BitVec 7) (dir : Bool) :
    (drvWord 0b01#2 false (addrByte a dir)).toNat = 0x200 + 2 * a.toNat + dir.toNat := by
  revert a dir
  decide

/-- Settles O30: the direction bit is 1 in FETCH only. -/
theorem startWaitPasses : Obligations.StartWaitPasses := by
  intro s st rd hl hx hst
  have hi : s.idx = 0#3 := State.idx_of_tStart hl hx
  refine ⟨drvWord 0b01#2 false (addrByte s.cfg.devAddr s.ph.dir), ?word, ?state⟩
  case word => rw [addressWord_toNat, Phase.dir, Bool.toNat, Bool.cond_decide]
  case state =>
    rw [exec_wait_of_expected rd hl (by simp [hx]) (by simpa [hx, expectedStatus] using hst),
      State.advance_start rd hx hi, ← hi]
    rfl

/-- Settles O31, by the three phases that run a transaction. -/
theorem addressWaitPasses : Obligations.AddressWaitPasses := by
  intro s st rd hl hx hst
  have hrun : s.tx ≠ .tOff := by simp [hx]
  have hexec : exec (.wait st rd) s = .next (s.advance rd) :=
    exec_wait_of_expected rd hl hrun (by by_cases hp : s.ph = .fetch <;> simp_all [expectedStatus, Phase.dir])
  refine ⟨_, rfl, ?_⟩
  rcases (Phase.transacts_iff _).mp (State.transacts_of_legal hl hrun) with hp | hp | hp
  · rw [hexec, State.advance_sendAddress (b := 0x40#8) rd hx (by rw [hp]; rfl) (by rw [hp]; rfl), if_pos hp]
    rfl
  · rw [hexec, State.advance_sendAddress (b := 0x00#8) rd hx (by rw [hp]; rfl) (by rw [hp]; rfl), if_neg (by simp [hp]),
      if_pos hp]
    rfl
  · rw [hexec, State.advance_receiveAddress rd hx (by rw [hp]; rfl), if_neg (by simp [hp]), if_neg (by simp [hp])]
    rfl

/-- Settles O32: INIT sends two bytes and REQUEST one. -/
theorem sendDataWaitPasses : Obligations.SendDataWaitPasses := by
  intro s rd hl hx
  have hexec (hd : s.ph.dir = false) : exec (.wait s.cfg.stTxdataAck rd) s = .next (s.advance rd) :=
    exec_wait_of_expected rd hl (by simp [hx]) (by simp [hx, hd, expectedStatus])
  refine ⟨fun hp hi => ?first, fun hp hi => ?last, fun hp => ?request⟩
  all_goals have hd : s.ph.dir = false := by rw [hp]; rfl
  case first =>
    rw [hexec hd, State.advance_sent (b := 0x00#8) rd hx hd (by rw [hp, hi]; decide) (by rw [hp, hi]; rfl), hi, ← hx]
    rfl
  case last =>
    rw [hexec hd, State.advance_sentLast rd hx hd (by rw [hp, hi]; decide), State.complete_of_init]
    · rfl
    · exact hp
  case request =>
    have hi : s.idx = 0#3 := by simpa [State.seqLegal, hp, hx] using hl
    rw [hexec hd, State.advance_sentLast rd hx hd (by rw [hp, hi]; decide), State.complete_of_request]
    · rfl
    · exact hp

/-- The next byte index does not wrap (R18). -/
theorem toNat_add_one {i : BitVec 3} (hi : i.toNat < 7) : (i + 1#3).toNat = i.toNat + 1 := by
  bv_omega

/-- The READ after the byte at index `k` is acknowledged but for the sixth byte (R112). -/
theorem nextReadWord {k : Nat} (hk : k < 5) :
    drvWord 0b10#2 (decide (k + 2 < receiveLength)) 0x00#8 = if k = 4 then 0x400#11 else 0x500#11 := by
  interval_cases k <;> rfl

/-- Settles O33: the byte at index 5 is the last. -/
theorem receiveDataWaitPasses : Obligations.ReceiveDataWaitPasses := by
  intro s rd hl hx hp
  have hrun : s.tx ≠ .tOff := by simp [hx]
  have hd : s.ph.dir = true := by rw [hp]; rfl
  have hstored (j : Fin 6) :
      (s.raw.setIfInBounds s.idx.toNat rd)[j] = if j.val = s.idx.toNat then rd else s.raw[j] := by
    simp [Vector.getElem_setIfInBounds, eq_comm]
  refine ⟨fun hi => ?more, fun hi => ?last⟩
  case more =>
    have hmore : s.idx.toNat + 1 < receiveLength := by unfold receiveLength; omega
    refine ⟨_, exec_wait_of_expected rd hl hrun (by simp [hx, hd, expectedStatus, hmore]), ?_⟩
    rw [State.advance_received rd hx hd hmore, ← hx]
    exact ⟨hstored, toNat_add_one (by omega), nextReadWord hi, rfl⟩
  case last =>
    have hlast : receiveLength ≤ s.idx.toNat + 1 := by unfold receiveLength; omega
    have hstored' (j : Fin 6) : (s.raw.setIfInBounds s.idx.toNat rd)[j] = if j.val = 5 then rd else s.raw[j] := by
      rw [hstored, hi]
    refine ⟨_, exec_wait_of_expected rd hl hrun (by simp [hx, hd, expectedStatus, Nat.not_lt.mpr hlast]), ?_⟩
    rw [State.advance_receivedLast rd hx hd hlast rfl, State.complete_of_fetch]
    · cases s.cfg.recvStop <;> exact ⟨hstored', rfl⟩
    · cases s.cfg.recvStop <;> exact hp

end Sys2Proof.Machine
end

