-- ==== Sys2Proof/Proofs/TransactionWait.lean ====
section
/-! A wait inside a whole transaction (R111, R112, R250), tick by tick. -/

namespace Sys2Proof.Machine

section
variable {expected : List Byte} {k : Byte → State → TransactionEnd × State} {s : State}

theorem verifyWait_of_reset (htmr : 1 ≤ s.tmr) (hrst : s.sample.inp.rst = true) :
    verifyWait expected k s = (.reset, s.sample.doReset) := by
  obtain ⟨n, hn⟩ := Nat.exists_eq_add_of_le' htmr
  simp [verifyWait, hn, waitTicks, hrst]

theorem verifyWait_of_done (htmr : 1 ≤ s.tmr) (hrst : s.sample.inp.rst = false) (hdone : s.sample.inp.drvDone = true) :
    verifyWait expected k s =
      if s.sample.inp.drvStatus ∈ expected then k s.sample.inp.drvRdata s.sample
      else (.returned false, s.sample.failTransaction .busPhaseError) := by
  obtain ⟨n, hn⟩ := Nat.exists_eq_add_of_le' htmr
  by_cases hst : s.sample.inp.drvStatus ∈ expected <;> simp [verifyWait, hn, waitTicks, hrst, hdone, verify, hst]

theorem verifyWait_of_last (htmr : s.tmr = 1) (hrst : s.sample.inp.rst = false) (hdone : s.sample.inp.drvDone = false) :
    verifyWait expected k s = (.returned false, { s.sample with tmr := 0 }.failTransaction .busTimeoutError) := by
  simp [verifyWait, htmr, waitTicks, hrst, hdone, verify]

theorem verifyWait_of_more (htmr : 2 ≤ s.tmr) (hrst : s.sample.inp.rst = false) (hdone : s.sample.inp.drvDone = false) :
    verifyWait expected k s = verifyWait expected k { s.sample with tmr := s.tmr - 1 } := by
  obtain ⟨n, hn⟩ := Nat.exists_eq_add_of_le' htmr
  simp [verifyWait, hn, waitTicks, hrst, hdone]

end

end Sys2Proof.Machine
end

