-- ==== Sys2Proof/Proofs/AnsweredTransaction.lean ====
section
/-! A whole transaction whose waits are all answered at once with the expected codes (R111 to R113). -/

namespace Sys2Proof

/-- In this tick the driver answers with a status code of `expected`, and no reset comes (R71, R94). -/
def Inputs.Answers (x : Inputs) (expected : List Byte) : Prop :=
  x.rst = false ∧ x.drvDone = true ∧ x.drvStatus ∈ expected

end Sys2Proof

namespace Sys2Proof.Machine

/-! ### A wait that is answered at once -/

/-- The state sampled in a tick whose placed input is `x`, with `rest` still to come (R10). -/
def State.sampled (s : State) (x : Inputs) (rest : List Inputs) : State :=
  { s with inp := x, inputs := rest, done := false, drvValid := false }

/-- The state after START and the address byte, both answered: `y` is the input of the second answer (R114). -/
def State.addressed (s : State) (a : BitVec 7) (dir : Bool) (y : Inputs) (rest : List Inputs) : State :=
  { s with
    tx := .tAddr, idx := 0#3, tmr := s.cfg.timeout, busOwn := true, done := false, drvValid := false,
    drvCmd := drvWord 0b01#2 false (addrByte a dir), inp := y, inputs := rest,
    trace := s.trace ++ [drvWord 0b00#2 false 0x00#8] ++ [drvWord 0b01#2 false (addrByte a dir)] }

/-- The state after the driver word `w` of a data byte at index `i`, answered in the tick of `z` (R116, R117). -/
def State.answered (s : State) (w : DrvWord) (i : BitVec 3) (z : Inputs) (rest : List Inputs) : State :=
  { s with
    tx := .tData, idx := i, tmr := s.cfg.timeout, done := false, drvValid := false, drvCmd := w, inp := z,
    inputs := rest, trace := s.trace ++ [w] }

theorem State.addressed_trace (s : State) (a : BitVec 7) (dir : Bool) (y : Inputs) (rest : List Inputs) :
    (s.addressed a dir y rest).trace =
      s.trace ++ [0x000#11, 0x200#11 ||| (a ++ BitVec.ofBool dir : Byte).setWidth 11] := by
  rw [State.addressed, drvWord_write, List.append_assoc]
  rfl

section
variable {s : State} {rest : List Inputs}

theorem State.sample_of_placed {x : Inputs} (hin : s.inputs = x :: rest) : s.sample = s.sampled x rest := by
  simp only [State.sample, State.sampled, hin]

theorem verifyWait_of_answers {expected : List Byte} {k : Byte → State → TransactionEnd × State} {x : Inputs}
    (htmr : 1 ≤ s.tmr) (hin : s.inputs = x :: rest) (hx : x.Answers expected) :
    verifyWait expected k s = k x.drvRdata (s.sampled x rest) := by
  obtain ⟨hrst, hdone, hst⟩ := hx
  have hs : s.sample = s.sampled x rest := State.sample_of_placed hin
  rw [verifyWait_of_done htmr (by rw [hs]; exact hrst) (by rw [hs]; exact hdone), hs]
  exact if_pos hst

/-! ### Transactions whose waits are all answered at once -/

/-- The words of `n` received bytes: all but the last are acknowledged (R112). -/
def readWords : Nat → List DrvWord
  | 0 => []
  | n + 1 => drvWord 0b10#2 (decide (0 < n)) 0x00#8 :: readWords n

/-- `RAW` after the bytes from index `i` on are stored, each from its answer (R113). -/
def storeAll : List Inputs → BitVec 3 → Vector Byte 6 → Vector Byte 6
  | [], _, raw => raw
  | z :: zs, i, raw => storeAll zs (i + 1#3) (raw.setIfInBounds i.toNat z.drvRdata)

section
variable (htime : 1 ≤ s.cfg.timeout)
include htime

theorem openTransaction_of_answers {a : BitVec 7} {dir : Bool} {k : State → TransactionEnd × State} {x y : Inputs}
    (hin : s.inputs = x :: y :: rest) (hx : x.Answers [s.cfg.stStart, s.cfg.stRstart])
    (hy : y.Answers (if dir then [s.cfg.stSlarAck] else [s.cfg.stSlawAck])) :
    openTransaction a dir k s = k (s.addressed a dir y rest) :=
  Eq.trans (verifyWait_of_answers htime hin hx) (verifyWait_of_answers htime rfl hy)

theorem sendData_cons_of_answers {b : Byte} {bs : List Byte} {i : BitVec 3} {z : Inputs} (hin : s.inputs = z :: rest)
    (hz : z.Answers [s.cfg.stTxdataAck]) :
    sendData (b :: bs) i s = sendData bs (i + 1#3) (s.answered (drvWord 0b01#2 false b) i z rest) :=
  verifyWait_of_answers htime hin hz

theorem receiveData_succ_of_answers {n : Nat} {i : BitVec 3} {z : Inputs} (hin : s.inputs = z :: rest)
    (hz : z.Answers (if 0 < n then [s.cfg.stRxdataAck] else [s.cfg.stRxdataNack])) :
    receiveData (n + 1) i s =
      receiveData n (i + 1#3) { s.answered (drvWord 0b10#2 (decide (0 < n)) 0x00#8) i z rest with
        raw := s.raw.setIfInBounds i.toNat z.drvRdata } :=
  verifyWait_of_answers htime hin hz

variable (htmr : s.tmr = s.cfg.timeout) (hdone : s.done = false)
include htmr hdone

/-- The bytes of a SEND and its end (R111), one answer to each byte. -/
theorem sendData_of_answers {bs : List Byte} {zs : List Inputs} {i : BitVec 3} (hin : s.inputs = zs ++ rest)
    (hlen : zs.length = bs.length) (hz : ∀ z ∈ zs, z.Answers [s.cfg.stTxdataAck]) :
    ∃ x, sendData bs i s = (.returned true, { s with
      tx := .tOff, idx := 0#3, busOwn := false, drvValid := true, drvCmd := 0x600#11,
      trace := s.trace ++ bs.map (drvWord 0b01#2 false) ++ [0x600#11], inputs := rest, inp := x,
      latch := { s.latch with result := true } }) := by
  induction bs generalizing zs i s with
  | nil =>
    obtain rfl : zs = [] := List.eq_nil_of_length_eq_zero hlen
    refine ⟨s.inp, ?_⟩
    rw [← show s.inputs = rest from hin, List.map_nil, List.append_nil]
    rfl
  | cons b bs ih =>
    obtain ⟨z, zs, rfl⟩ := List.exists_cons_of_length_eq_add_one hlen
    obtain ⟨hfirst, hz⟩ := List.forall_mem_cons.mp hz
    obtain ⟨x, hrest⟩ := ih (s := s.answered (drvWord 0b01#2 false b) i z (zs ++ rest)) (i := i + 1#3) htime rfl rfl rfl
      (Nat.succ.inj hlen) hz
    refine ⟨x, (sendData_cons_of_answers htime hin hfirst).trans (hrest.trans ?_)⟩
    rw [htmr, hdone, List.map_cons, List.append_cons s.trace]
    rfl

/-- The bytes of a RECEIVE and its end (R112, R113). -/
theorem receiveData_of_answers {zs : List Inputs} {i : BitVec 3} {stop : Bool} (hstop : s.cfg.recvStop = stop)
    (hvalid : s.drvValid = false) (hin : s.inputs = zs ++ rest)
    (hz : ∀ (j : Nat) (h : j < zs.length),
      zs[j].Answers (if j + 1 < zs.length then [s.cfg.stRxdataAck] else [s.cfg.stRxdataNack])) :
    ∃ x, receiveData zs.length i s = (.returned true, { s with
      tx := .tOff, idx := 0#3, raw := storeAll zs i s.raw, busOwn := if stop then false else s.busOwn,
      drvValid := if stop then true else s.drvValid,
      drvCmd := if stop then 0x600#11 else (readWords zs.length).getLastD s.drvCmd,
      trace := s.trace ++ readWords zs.length ++ if stop then [0x600#11] else [],
      inputs := rest, inp := x, latch := { s.latch with result := true } }) := by
  induction zs generalizing i s with
  | nil =>
    refine ⟨s.inp, ?_⟩
    rw [← show s.inputs = rest from hin, List.length_nil, receiveData, hstop]
    cases stop <;> simp only [readWords, Bool.false_eq_true, if_false, List.append_nil] <;> rfl
  | cons z zs ih =>
    have hfirst : z.Answers (if 0 < zs.length then [s.cfg.stRxdataAck] else [s.cfg.stRxdataNack]) := by
      simpa using hz 0 (Nat.succ_pos _)
    have hlater (j : Nat) (h : j < zs.length) :
        zs[j].Answers (if j + 1 < zs.length then [s.cfg.stRxdataAck] else [s.cfg.stRxdataNack]) := by
      simpa using hz (j + 1) (Nat.succ_lt_succ h)
    obtain ⟨x, hrest⟩ := ih (i := i + 1#3)
      (s := { s.answered (drvWord 0b10#2 (decide (0 < zs.length)) 0x00#8) i z (zs ++ rest) with
        raw := s.raw.setIfInBounds i.toNat z.drvRdata }) htime rfl rfl hstop rfl rfl hlater
    refine ⟨x, (receiveData_succ_of_answers htime hin hfirst).trans (hrest.trans ?_)⟩
    rw [htmr, hdone, hvalid, List.length_cons, readWords, List.append_cons s.trace, List.getLastD_cons]
    rfl

end

end

/-! ### The two operations -/

theorem exec_send (a : BitVec 7) (s : State) : exec (.send a) s = .next (sendAll a s.ph.sendBytes s).2 := rfl

theorem exec_receive (a : BitVec 7) (s : State) : exec (.receive a) s = .next (receiveAll a s).2 := rfl

/-- Settles O34: the bytes of the phase, each with its answer, after the opened transaction. -/
theorem sendSucceeds : Obligations.SendSucceeds := by
  intro s a x y zs rest htime hin hlen hall hx hy hzs
  simp only [List.forall_mem_cons] at hall
  obtain ⟨⟨hxrst, hxdone⟩, ⟨hyrst, hydone⟩, hall⟩ := hall
  have hopen := openTransaction_of_answers (k := sendData s.ph.sendBytes 0#3) (a := a) (dir := false) htime hin
    ⟨hxrst, hxdone, by simpa using hx⟩ ⟨hyrst, hydone, by simpa using hy⟩
  obtain ⟨u, hdata⟩ := sendData_of_answers (s := s.addressed a false y (zs ++ rest)) (i := 0#3) htime rfl rfl rfl hlen
    (fun z hz => ⟨(hall z hz).1, (hall z hz).2, List.mem_singleton.mpr (hzs z hz)⟩)
  rw [exec_send, sendAll, hopen, hdata]
  refine ⟨_, rfl, ?_, rfl, rfl⟩
  rw [State.addressed_trace, show drvWord 0b01#2 false = fun b => 0x200#11 ||| b.setWidth 11 from funext drvWord_write]
  rfl

theorem storeAll_six (zs : Vector Inputs 6) (raw : Vector Byte 6) (j : Fin 6) :
    (storeAll zs.toList 0#3 raw)[j] = zs[j].drvRdata := by
  match zs with
  | ⟨⟨[_, _, _, _, _, _]⟩, _⟩ => fin_cases j <;> simp [storeAll]

/-- Settles O35: six bytes, each with its answer, after the opened transaction. -/
theorem receiveSucceeds : Obligations.ReceiveSucceeds := by
  intro s a x y zs rest htime hin hall hx hy hst
  simp only [List.forall_mem_cons] at hall
  obtain ⟨⟨hxrst, hxdone⟩, ⟨hyrst, hydone⟩, hall⟩ := hall
  have hopen := openTransaction_of_answers (k := receiveData receiveLength 0#3) (a := a) (dir := true) htime hin
    ⟨hxrst, hxdone, by simpa using hx⟩ ⟨hyrst, hydone, by simpa using hy⟩
  have hans (j : Nat) (h : j < zs.toList.length) : zs.toList[j].Answers
      (if j + 1 < zs.toList.length then [s.cfg.stRxdataAck] else [s.cfg.stRxdataNack]) := by
    obtain ⟨hrst, hdone⟩ := hall zs.toList[j] (List.getElem_mem h)
    have hj : zs.toList[j].drvStatus = if j < 5 then s.cfg.stRxdataAck else s.cfg.stRxdataNack :=
      hst ⟨j, by simpa using h⟩
    have hlast : j + 1 < zs.toList.length ↔ j < 5 := by
      rw [Vector.length_toList]
      omega
    refine ⟨hrst, hdone, ?_⟩
    simp only [hj, hlast]
    split <;> exact List.mem_singleton_self _
  obtain ⟨u, hdata⟩ := receiveData_of_answers (s := s.addressed a true y (zs.toList ++ rest)) (i := 0#3)
    (stop := s.cfg.recvStop) htime rfl rfl rfl rfl rfl hans
  rw [Vector.length_toList] at hdata
  rw [exec_receive, receiveAll, hopen, receiveLength, hdata, State.addressed_trace]
  refine ⟨_, rfl, storeAll_six zs s.raw, ?trace, ?frame⟩
  case trace =>
    rw [List.append_assoc s.trace]
    rfl
  case frame => cases s.cfg.recvStop <;> rfl

end Sys2Proof.Machine
end

