-- ==== Sys2Proof/Proofs/FailedTransaction.lean ====
section
/-! How a whole transaction fails (R110 to R113, R203, R204): out of a state inside it, and by the one failing end. -/

namespace Sys2Proof.Machine

/-- The registers that only the end of a command or COMMIT writes (R14, R15, R16, R20 to R22). -/
def State.commandRegisters (s : State) :
    Phase × Report × Vector Byte 4 × Vector Byte 4 × Bool × Bool × Bool :=
  (s.ph, s.report, s.calMax, s.calMin, s.ok, s.restartReq, s.inited)

/-- `u` stands inside a transaction that `s` began: START was its first word, and it has not ended (R111, R112). -/
def InTransaction (s u : State) : Prop :=
  u.tx ≠ .tOff ∧ (∃ mid, u.trace = s.trace ++ [0x000#11] ++ mid) ∧ u.commandRegisters = s.commandRegisters

/-- The transaction returns false by the failing end of R204 only, out of a state that meets `P`. -/
def FailsFrom (P : State → Prop) (r : TransactionEnd × State) : Prop :=
  ∀ t, r = (.returned false, t) →
    ∃ u c, P u ∧ (c = .busPhaseError ∨ c = .busTimeoutError) ∧ t = u.failTransaction c

/-- `P` holds after the ticks of a wait if it holds before. -/
def KeptByWait (P : State → Prop) : Prop := ∀ n s, P s → P (waitTicks n s).2

section
variable {P : State → Prop} {s : State}

theorem verifyWait_failsFrom (hkept : KeptByWait P) {expected : List Byte} {k : Byte → State → TransactionEnd × State}
    (hs : P s) (hk : ∀ r u, P u → FailsFrom P (k r u)) : FailsFrom P (verifyWait expected k s) := by
  intro t h
  have hwait := hkept s.tmr s hs
  unfold verifyWait at h
  split at h
  next => simp at h
  next a u hu =>
    replace hwait : P u := by simpa [hu] using hwait
    rcases verify_cases a expected with ⟨_, rd, _, _, hv⟩ | ⟨_, _, _, _, hv⟩ | ⟨_, hv⟩ <;> rw [hv] at h
    · exact hk rd u hwait t h
    · cases h
      exact ⟨u, _, hwait, .inl rfl, rfl⟩
    · cases h
      exact ⟨u, _, hwait, .inr rfl, rfl⟩

theorem openTransaction_failsFrom (hkept : KeptByWait P) {a : BitVec 7} {dir : Bool}
    {k : State → TransactionEnd × State} (hstart : P { s with tx := .tStart, idx := 0#3 }.issueStart)
    (haddr : ∀ u, P u → P { u.issueWrite (addrByte a dir) with tx := .tAddr, idx := 0#3 })
    (hk : ∀ u, P u → FailsFrom P (k u)) : FailsFrom P (openTransaction a dir k s) :=
  verifyWait_failsFrom hkept hstart fun _ u hu => verifyWait_failsFrom hkept (haddr u hu) fun _ v hv => hk v hv

theorem sendData_failsFrom (hkept : KeptByWait P)
    (hwrite : ∀ b i u, P u → P { u.issueWrite b with tx := .tData, idx := i }) (bs : List Byte) (i : BitVec 3)
    (hs : P s) : FailsFrom P (sendData bs i s) := by
  induction bs generalizing i s with
  | nil =>
    intro t h
    cases h
  | cons b bs ih => exact verifyWait_failsFrom hkept (hwrite b i s hs) fun _ u hu => ih (i + 1#3) hu

theorem receiveData_failsFrom (hkept : KeptByWait P)
    (hread : ∀ a i u, P u → P { u.issueRead a with tx := .tData, idx := i })
    (hstore : ∀ r u, P u → P { u with raw := r }) (n : Nat) (i : BitVec 3)
    (hs : P s) : FailsFrom P (receiveData n i s) := by
  induction n generalizing i s with
  | zero =>
    intro t h
    cases h
  | succ n ih => exact verifyWait_failsFrom hkept (hread _ i s hs) fun _ u hu => ih (i + 1#3) (hstore _ u hu)

end

section
variable {s u v : State}

theorem InTransaction.keptByWait : KeptByWait (InTransaction s) := by
  rintro n u ⟨hrun, htrace, hregs⟩
  obtain ⟨-, -, hph, htx, -, -, -, hreport, hmax, hmin, hok, hrestart, hinited, hwords, -⟩ := waitTicks_frame n u
  refine ⟨htx ▸ hrun, hwords ▸ htrace, Eq.trans ?_ hregs⟩
  simp only [State.commandRegisters, hph, hreport, hmax, hmin, hok, hrestart, hinited]

theorem InTransaction.issue (h : InTransaction s u) {w : DrvWord} (hrun : v.tx ≠ .tOff)
    (htrace : v.trace = u.trace ++ [w]) (hregs : v.commandRegisters = u.commandRegisters) : InTransaction s v := by
  obtain ⟨-, ⟨mid, hmid⟩, hkept⟩ := h
  exact ⟨hrun, ⟨mid ++ [w], by rw [htrace, hmid, List.append_assoc]⟩, hregs.trans hkept⟩

theorem InTransaction.start : InTransaction s { s with tx := .tStart, idx := 0#3 }.issueStart :=
  ⟨by simp, ⟨[], (List.append_nil _).symm⟩, rfl⟩

theorem InTransaction.write (h : InTransaction s u) (b : Byte) {x : TxPos} (hx : x ≠ .tOff) (i : BitVec 3) :
    InTransaction s { u.issueWrite b with tx := x, idx := i } :=
  h.issue hx rfl rfl

end

/-- A SEND fails out of a state with the `RAW` it began with (R204). -/
theorem sendAll_failsFrom (a : BitVec 7) (bs : List Byte) (s : State) :
    FailsFrom (fun u => InTransaction s u ∧ u.raw = s.raw) (sendAll a bs s) := by
  have hkept : KeptByWait fun u => InTransaction s u ∧ u.raw = s.raw := fun n u ⟨hin, hraw⟩ =>
    ⟨InTransaction.keptByWait n u hin, by simp [waitTicks_frame n u, hraw]⟩
  have hwrite (b : Byte) (x : TxPos) (hx : x ≠ .tOff) (i : BitVec 3) (u : State)
      (hu : InTransaction s u ∧ u.raw = s.raw) :
      InTransaction s { u.issueWrite b with tx := x, idx := i } ∧ u.raw = s.raw := ⟨hu.1.write b hx i, hu.2⟩
  exact openTransaction_failsFrom hkept ⟨.start, rfl⟩ (hwrite _ .tAddr (by decide) 0#3) fun _ hu =>
    sendData_failsFrom hkept (fun b => hwrite b .tData (by decide)) bs 0#3 hu

theorem receiveAll_failsFrom (a : BitVec 7) (s : State) : FailsFrom (InTransaction s) (receiveAll a s) :=
  openTransaction_failsFrom InTransaction.keptByWait .start (fun _ hin => hin.write _ (by decide) _) fun _ hu =>
    receiveData_failsFrom InTransaction.keptByWait (fun _ _ _ hin => hin.issue (by simp) rfl rfl) (fun _ _ hin => hin)
      _ _ hu

/-- Settles O36: the failing state stands inside the transaction, and the failing end adds STOP. -/
theorem failedTransactionReleasesBus : Obligations.FailedTransactionReleasesBus := by
  intro s t a hfail
  have hcause : ∃ u c, InTransaction s u ∧ (c = .busPhaseError ∨ c = .busTimeoutError) ∧ t = u.failTransaction c := by
    rcases hfail with hsend | hreceive
    · obtain ⟨u, c, ⟨hin, -⟩, hc⟩ := sendAll_failsFrom a _ s t hsend
      exact ⟨u, c, hin, hc⟩
    · exact receiveAll_failsFrom a s t hreceive
  have hraw (hsend : sendAll a s.ph.sendBytes s = (.returned false, t)) : t.raw = s.raw := by
    obtain ⟨u, c, ⟨-, hraw⟩, -, rfl⟩ := sendAll_failsFrom a _ s t hsend
    exact hraw
  obtain ⟨u, c, ⟨hrun, ⟨mid, htrace⟩, hregs⟩, hc, rfl⟩ := hcause
  simp only [State.commandRegisters, Prod.mk.injEq] at hregs
  obtain ⟨hph, hreport, hmax, hmin, hok, hrestart, hinited⟩ := hregs
  exact ⟨⟨mid, congrArg (· ++ [0x600#11]) htrace⟩, rfl, rfl, rfl, rfl, hc, hph, hrun, rfl, rfl, hph, hreport, hmax,
    hmin, hok, hrestart, hinited, hraw⟩

end Sys2Proof.Machine
end

