-- ==== Sys2Proof/Proofs/SmallSteps.lean ====
section
/-! The two forms of a transaction agree (R119): the ticks of INIT, REQUEST and FETCH lead where the whole transaction
leads. -/

namespace Sys2Proof.Machine

/-! ### Small steps -/

/-- The state in which a whole transaction followed by `Complete` ends (R119). -/
def completed : TransactionEnd × State → State
  | (.returned b, t) => t.complete b
  | (.reset, t) => t

theorem transactAndComplete_of_send {p : Phase} (hd : p.dir = false) (s : State) :
    transactAndComplete p s = completed (openTransaction s.cfg.devAddr p.dir (sendData p.sendBytes 0#3) s) := by
  simp only [transactAndComplete, hd, Bool.false_eq_true, if_false]
  rfl

theorem transactAndComplete_of_receive {p : Phase} (hd : p.dir = true) (s : State) :
    transactAndComplete p s = completed (openTransaction s.cfg.devAddr p.dir (receiveData receiveLength 0#3) s) := by
  simp only [transactAndComplete, hd, if_true]
  rfl

/-- Some number of ticks leads from `s` to `t`. -/
def Reaches (s t : State) : Prop := ∃ k, core.run k s = .next t

theorem Reaches.refl (s : State) : Reaches s s := ⟨0, rfl⟩

theorem Reaches.head {s u t : State} (h : step s = .next u) : Reaches u t → Reaches s t
  | ⟨k, hk⟩ => ⟨k + 1, (run_succ_of_next (M := core) k h).trans hk⟩

/-- The hardware of the build `c` stands in phase `p` at the position `x`, `i`, with no word in the model's slot. -/
structure WaitsAt (c : Config) (p : Phase) (x : TxPos) (i : BitVec 3) (s : State) : Prop where
  cfg : s.cfg = c
  empty : s.slot = none
  ph : s.ph = p
  tx : s.tx = x
  idx : s.idx = i

section
variable {c : Config} {p : Phase} {x : TxPos} {i : BitVec 3} {s : State}

theorem WaitsAt.sample (h : WaitsAt c p x i s) : WaitsAt c p x i s.sample := by
  obtain ⟨hc, hslot, hp, hx, hi⟩ := h
  constructor <;> simpa

theorem WaitsAt.count (h : WaitsAt c p x i s) (n : Nat) : WaitsAt c p x i { s with tmr := n } :=
  ⟨h.cfg, h.empty, h.ph, h.tx, h.idx⟩

theorem WaitsAt.step_of_reset (hwf : c.wf = true) (h : WaitsAt c p x i s) (hrst : s.sample.inp.rst = true) :
    step s = .next s.sample.doReset := by
  rw [step_eq_outcome s (h.cfg ▸ hwf) h.empty, State.fetchTick, if_pos hrst]
  rfl

theorem WaitsAt.step_eq (hwf : c.wf = true) (h : WaitsAt c p x i s) (hl : s.seqLegal = true) (hrun : x ≠ .tOff)
    (hrst : s.sample.inp.rst = false) : step s = .next s.sample.waitTick := by
  have hl' : s.sample.seqLegal = true := by simpa using hl
  have hrun' : s.sample.tx ≠ .tOff := by simpa [h.tx] using hrun
  obtain ⟨j, hj⟩ : ∃ j, s.sample.ph.operation = some j := by
    rcases (Phase.transacts_iff _).mp (State.transacts_of_legal hl' hrun') with hp | hp | hp <;>
      exact ⟨_, by rw [hp]; rfl⟩
  rw [step_eq_outcome s (h.cfg ▸ hwf) h.empty, State.fetchTick, if_neg (by simp [hrst]), if_pos hl', hj]
  exact exec_operation_of_legal hl' hrun' hj

end

/-! ### A wait -/

section
variable {c : Config} {p : Phase} {x : TxPos} {i : BitVec 3} {k : Byte → State → TransactionEnd × State} {s : State}
  (hwf : c.wf = true) (hrun : x ≠ .tOff) (hk : ∀ r u, WaitsAt c p x i u → Reaches (u.advance r) (completed (k r u)))
include hwf hrun hk

/-- The tick of a wait in which a reset or an answer comes; the tick without either is left open. -/
theorem reaches_verifyWait_of_quiet (hs : WaitsAt c p x i s) (hl : s.seqLegal = true) (htmr : 1 ≤ s.tmr)
    (hquiet : s.sample.inp.rst = false → s.sample.inp.drvDone = false →
      Reaches s.sample.waitTick (completed (verifyWait (expectedStatus c x p.dir i.toNat) k s))) :
    Reaches s (completed (verifyWait (expectedStatus c x p.dir i.toNat) k s)) := by
  cases hrst : s.sample.inp.rst with
  | true =>
    rw [verifyWait_of_reset htmr hrst]
    exact .head (hs.step_of_reset hwf hrst) (.refl _)
  | false =>
    refine .head (hs.step_eq hwf hl hrun hrst) ?_
    cases hdone : s.sample.inp.drvDone with
    | false => exact hquiet hrst hdone
    | true =>
      have hexpected : expectedStatus s.sample.cfg s.sample.tx s.sample.ph.dir s.sample.idx.toNat =
          expectedStatus c x p.dir i.toNat := by simp [hs.cfg, hs.tx, hs.ph, hs.idx]
      rw [verifyWait_of_done htmr hrst hdone, State.waitTick_of_answer hdone]
      split
      next hst =>
        rw [State.answerStep_of_expected _ (hexpected ▸ hst)]
        exact hk _ _ hs.sample
      next hst =>
        rw [State.answerStep_of_mismatch _ (hexpected ▸ hst)]
        exact .refl _

/-- The ticks of a wait lead where the wait of the whole transaction leads, if what follows a verified answer does: by
induction on the ticks left. -/
theorem reaches_verifyWait (hs : WaitsAt c p x i s) (hl : s.seqLegal = true) (htmr : 1 ≤ s.tmr) :
    Reaches s (completed (verifyWait (expectedStatus c x p.dir i.toNat) k s)) := by
  obtain ⟨n, hn⟩ := Nat.exists_eq_add_of_le' htmr
  induction n generalizing s with
  | zero =>
    refine reaches_verifyWait_of_quiet hwf hrun hk hs hl htmr fun hrst hdone => ?_
    rw [verifyWait_of_last hn hrst hdone, State.waitTick_of_le_one hdone (by simp [hn])]
    exact .refl _
  | succ n ih =>
    refine reaches_verifyWait_of_quiet hwf hrun hk hs hl htmr fun hrst hdone => ?_
    rw [verifyWait_of_more (by omega) hrst hdone, State.waitTick_of_two_le hdone (by simp [hn]), State.sample_tmr]
    have hlegal : ({ s.sample with tmr := s.tmr - 1 } : State).seqLegal = true := s.sample_seqLegal.trans hl
    exact ih (hs.sample.count _) hlegal (by simp [hn]) (by simp [hn])

end

/-! ### The positions of a transaction -/

theorem State.seqLegal_of_sending {s : State} (htr : s.ph.transacts = true) (hd : s.ph.dir = false) (hx : s.tx = .tData)
    (hi : s.idx.toNat < s.ph.sendBytes.length) : s.seqLegal = true := by
  rcases (Phase.transacts_iff _).mp htr with hp | hp | hp
  · have hle : s.idx.toNat ≤ 1 := by simpa [hp, Phase.sendBytes, Nat.lt_succ_iff] using hi
    simpa [State.seqLegal, hp, hx] using hle
  · have hzero : s.idx = 0#3 := by simpa [hp, Phase.sendBytes, ← BitVec.toNat_inj] using hi
    simpa [State.seqLegal, hp, hx] using hzero
  · simp [hp, Phase.dir] at hd

theorem State.seqLegal_of_receiving {s : State} (hp : s.ph = .fetch) (hx : s.tx = .tData)
    (hi : s.idx.toNat < receiveLength) : s.seqLegal = true := by
  simpa [State.seqLegal, hp, hx] using Nat.le_of_lt_succ hi

/-- The timer is loaded with at least one tick (R6). -/
theorem timeout_pos {c : Config} (hwf : c.wf = true) : 1 ≤ c.timeout := by
  simp_all [Config.wf]

section
variable {c : Config} {p : Phase} {s : State} (hwf : c.wf = true) (hc : s.cfg = c) (hslot : s.slot = none)
include hwf hc hslot

/-- START and the address byte (R114, R115). -/
theorem reaches_openTransaction (htr : p.transacts = true) {k : State → TransactionEnd × State}
    (hk : ∀ r u, WaitsAt c p .tAddr 0#3 u → Reaches (u.advance r) (completed (k u))) :
    Reaches (s.beginPhase p) (completed (openTransaction c.devAddr p.dir k { s with ph := p })) := by
  have htime : 1 ≤ c.timeout := timeout_pos hwf
  have hstart : [s.cfg.stStart, s.cfg.stRstart] = expectedStatus c .tStart p.dir (0#3).toNat := by rw [hc]; rfl
  change Reaches (s.beginPhase p) (completed (verifyWait [s.cfg.stStart, s.cfg.stRstart] _ (s.beginPhase p)))
  rw [hstart]
  refine reaches_verifyWait (p := p) (x := .tStart) (i := 0#3) hwf (by decide) (fun r u hu => ?_)
    ⟨hc, hslot, rfl, rfl, rfl⟩ (State.seqLegal_at_zero (s := s.beginPhase p) (x := .tStart) htr (by decide))
    (by simpa [hc] using htime)
  obtain ⟨huc, huslot, hup, hux, hui⟩ := hu
  have haddr : (if p.dir then [c.stSlarAck] else [c.stSlawAck]) = expectedStatus c .tAddr p.dir (0#3).toNat := rfl
  rw [State.advance_start r hux hui, huc, hup, haddr]
  exact reaches_verifyWait hwf (by decide) hk ⟨huc, huslot, hup, rfl, rfl⟩
    (State.seqLegal_at_zero (s := u.issueWrite (addrByte c.devAddr p.dir)) (hup ▸ htr) (by decide))
    (by simpa [huc] using htime)

variable (hp : s.ph = p)
include hp

/-- One data byte of a SEND. -/
theorem reaches_sentByte (htr : p.transacts = true) (hd : p.dir = false) {b : Byte} {bs : List Byte} {i : BitVec 3}
    (hi : i.toNat < p.sendBytes.length)
    (hk : ∀ r u, WaitsAt c p .tData i u → Reaches (u.advance r) (completed (sendData bs (i + 1#3) u))) :
    Reaches { s.issueWrite b with tx := .tData, idx := i } (completed (sendData (b :: bs) i s)) := by
  have hexpected : [s.cfg.stTxdataAck] = expectedStatus c .tData p.dir i.toNat := by rw [hd, hc]; rfl
  subst hp
  rw [sendData, hexpected]
  exact reaches_verifyWait hwf (by decide) hk ⟨hc, hslot, rfl, rfl, rfl⟩ (State.seqLegal_of_sending htr hd rfl hi)
    (hc ▸ timeout_pos hwf : 1 ≤ s.cfg.timeout)

/-- The data bytes of a SEND from index `i` on, and its end (R116). -/
theorem reaches_sendData (htr : p.transacts = true) (hd : p.dir = false) {b : Byte} {bs : List Byte} {i : BitVec 3}
    (hdrop : p.sendBytes.drop i.toNat = b :: bs) :
    Reaches { s.issueWrite b with tx := .tData, idx := i } (completed (sendData (b :: bs) i s)) := by
  have hmost : p.sendBytes.length ≤ 2 := by cases p <;> decide
  induction bs generalizing b i s with
  | nil =>
    have hlen : p.sendBytes.length - i.toNat = 1 := by simpa using congrArg List.length hdrop
    refine reaches_sentByte hwf hc hslot hp htr hd (by omega) fun r u hu => ?_
    obtain ⟨huc, huslot, hup, hux, hui⟩ := hu
    rw [State.advance_sentLast r hux (hup ▸ hd) (by rw [hup, hui]; omega)]
    exact .refl _
  | cons b' bs ih =>
    have hlen : p.sendBytes.length - i.toNat = bs.length + 2 := by simpa using congrArg List.length hdrop
    have hnext : (i + 1#3).toNat = i.toNat + 1 := toNat_add_one (by omega)
    have hdrop' : p.sendBytes.drop (i.toNat + 1) = b' :: bs := by rw [← List.tail_drop, hdrop]; rfl
    have hb : p.sendBytes.getD (i.toNat + 1) 0x00#8 = b' := by
      simpa using congrArg (List.getD · 0 0x00#8) hdrop'
    refine reaches_sentByte hwf hc hslot hp htr hd (by omega) fun r u hu => ?_
    obtain ⟨huc, huslot, hup, hux, hui⟩ := hu
    rw [State.advance_sent (b := b') r hux (hup ▸ hd) (by rw [hup, hui]; omega) (by rw [hup, hui]; exact hb), hui]
    exact ih huc huslot hup (hnext ▸ hdrop')

/-- One byte of a RECEIVE, with `n` more to come. -/
theorem reaches_receivedByte (hf : p = .fetch) {n : Nat} {i : BitVec 3} (hn : i.toNat + n + 1 = receiveLength)
    (hk : ∀ r u, WaitsAt c p .tData i u →
      Reaches (u.advance r) (completed (receiveData n (i + 1#3) { u with raw := u.raw.setIfInBounds i.toNat r }))) :
    Reaches { s.issueRead (decide (0 < n)) with tx := .tData, idx := i } (completed (receiveData (n + 1) i s)) := by
  have hmore : i.toNat + 1 < receiveLength ↔ 0 < n := by omega
  have hexpected : (if 0 < n then [s.cfg.stRxdataAck] else [s.cfg.stRxdataNack]) =
      expectedStatus c .tData p.dir i.toNat := by
    simp only [expectedStatus, hf, hmore, hc]
    rfl
  rw [receiveData, hexpected]
  exact reaches_verifyWait hwf (by decide) hk ⟨hc, hslot, hp, rfl, rfl⟩
    (State.seqLegal_of_receiving (hp.trans hf) rfl (by simp; omega)) (hc ▸ timeout_pos hwf : 1 ≤ s.cfg.timeout)

/-- The bytes of a RECEIVE from index `i` on, and its end (R117). -/
theorem reaches_receiveData (hf : p = .fetch) {n : Nat} {i : BitVec 3} (hn : i.toNat + n + 1 = receiveLength) :
    Reaches { s.issueRead (decide (0 < n)) with tx := .tData, idx := i } (completed (receiveData (n + 1) i s)) := by
  have hd : p.dir = true := by rw [hf]; rfl
  induction n generalizing i s with
  | zero =>
    refine reaches_receivedByte hwf hc hslot hp hf hn fun r u hu => ?_
    obtain ⟨huc, huslot, hup, hux, hui⟩ := hu
    rw [State.advance_receivedLast r hux (hup ▸ hd) (by rw [hui]; omega) rfl, hui]
    exact .refl _
  | succ n ih =>
    have hnext : (i + 1#3).toNat = i.toNat + 1 := toNat_add_one (by unfold receiveLength at hn; omega)
    have hack : i.toNat + 2 < receiveLength ↔ 0 < n := by omega
    refine reaches_receivedByte hwf hc hslot hp hf hn fun r u hu => ?_
    obtain ⟨huc, huslot, hup, hux, hui⟩ := hu
    rw [State.advance_received r hux (hup ▸ hd) (by rw [hui]; omega), hui, decide_eq_decide.mpr hack]
    exact ih (s := { u with raw := u.raw.setIfInBounds i.toNat r }) huc huslot hup (by omega)

end

/-- Settles O25: each position of the transaction leads to the next, in the small steps as in the whole. -/
theorem smallStepsAgreeWithWhole : Obligations.SmallStepsAgreeWithWhole := by
  intro s p htr hwf hslot
  change Reaches _ _
  cases hd : p.dir with
  | false =>
    rw [transactAndComplete_of_send hd]
    refine reaches_openTransaction hwf rfl hslot htr fun r u hu => ?_
    obtain ⟨huc, huslot, hup, hux, hui⟩ := hu
    obtain ⟨b, bs, hbytes⟩ : ∃ b bs, p.sendBytes = b :: bs := by
      rcases (Phase.transacts_iff _).mp htr with rfl | rfl | rfl
      · exact ⟨_, _, rfl⟩
      · exact ⟨_, _, rfl⟩
      · cases hd
    rw [State.advance_sendAddress (b := b) r hux (hup ▸ hd) (by rw [hup, hbytes]; rfl), hbytes]
    exact reaches_sendData hwf huc huslot hup htr hd hbytes
  | true =>
    have hfetch : p = .fetch := by simpa [Phase.dir] using hd
    rw [transactAndComplete_of_receive hd]
    refine reaches_openTransaction hwf rfl hslot htr fun r u hu => ?_
    obtain ⟨huc, huslot, hup, hux, hui⟩ := hu
    rw [State.advance_receiveAddress r hux (hup ▸ hd)]
    exact reaches_receiveData hwf huc huslot hup hfetch (n := 5) rfl

end Sys2Proof.Machine
end

