-- ==== Sys2Proof/Proofs/Decoder.lean ====
section
/-! The decoder: `DEC` on one byte of `RAW` (R131), and the laws of `DEC` and `ENC` (R134). -/

namespace Sys2Proof.Machine

/-! ### `DEC` -/

theorem exec_dec_eq {s : State} {i : BitVec 3} (hi : i.toNat < 6) :
    exec (.dec i) s = .next { s with raw := s.raw.set i.toNat (decByte s.raw[i.toNat]) } :=
  dif_pos hi

theorem decByte_toNat (x : Byte) : (decByte x).toNat = ((x ^^^ 0x17#8).toNat + 0x17) % 256 :=
  BitVec.toNat_add _ _

/-- Settles O44: `RAW` is written at index `i` only, with the number that R131 gives. -/
theorem decDecodesOneByte : Obligations.DecDecodesOneByte := by
  intro s i hi
  refine ⟨_, exec_dec_eq hi, fun j => ?_, rfl⟩
  by_cases hj : j.val = i.toNat
  · simp [hj, decByte_toNat]
  · simp [hj, Vector.getElem_set_ne hi j.isLt (Ne.symm hj)]

/-! ### The laws -/

@[simp] theorem decByte_encByte (y : Byte) : decByte (encByte y) = y := by
  rw [decByte, encByte, BitVec.xor_assoc, BitVec.xor_self, BitVec.xor_zero, BitVec.sub_add_cancel]

@[simp] theorem encByte_decByte (x : Byte) : encByte (decByte x) = x := by
  rw [decByte, encByte, BitVec.add_sub_cancel, BitVec.xor_assoc, BitVec.xor_self, BitVec.xor_zero]

theorem decByte_injective : Function.Injective decByte :=
  Function.LeftInverse.injective encByte_decByte

/-- The bits that `0x17` has set are those a fixed point needs: then the XOR clears what the addition puts back, with no
carry. Decided over the 256 bytes. -/
theorem decByte_eq_self_iff_bits (x : Byte) : decByte x = x ↔ x.extractLsb' 0 3 = 0b111#3 ∧ x.getLsbD 4 = true := by
  revert x
  decide

theorem decByte_eq_self_iff_mem (x : Byte) :
    decByte x = x ↔ x ∈ [0x17#8, 0x1F#8, 0x37#8, 0x3F#8, 0x57#8, 0x5F#8, 0x77#8, 0x7F#8, 0x97#8, 0x9F#8,
      0xB7#8, 0xBF#8, 0xD7#8, 0xDF#8, 0xF7#8, 0xFF#8] := by
  revert x
  decide

/-- `0xFF` is a fixed point and `DEC` is injective (R134 (d)). -/
theorem decByte_eq_ff_iff (x : Byte) : decByte x = 0xFF#8 ↔ x = 0xFF#8 :=
  decByte_injective.eq_iff' ((decByte_eq_self_iff_bits 0xFF#8).mpr (by decide))

/-- Settles O45: DEC and ENC are inverse, the fixed points are found by their bits, and `0xFF` is one of them. -/
theorem decoderLaws : Obligations.DecoderLaws := by
  refine ⟨decByte_encByte, encByte_decByte, by decide, decByte_eq_self_iff_mem, decByte_eq_self_iff_bits, fun r => ?_⟩
  exact forall_congr' fun j => by rw [Fin.getElem_fin, Fin.getElem_fin, decodeSix_getElem, decByte_eq_ff_iff]

end Sys2Proof.Machine
end

