-- ==== Sys2Proof/Proofs/Calibration.lean ====
section
/-! The axis calibration engine: `CENTER` (R143), `CAL` and the laws of its byte (R145 to R148, R152), `TRIG` (R150), and the
operations that are refused (log entries 13 and 14). -/

namespace Sys2Proof.Machine

/-! ### `CENTER` -/

/-- Neither polarity overflows the signed byte (R143). -/
theorem centre_toInt (inverted : Bool) (F : Byte) :
    (centre inverted F).toInt = if inverted then 127 - (F.toNat : Int) else (F.toNat : Int) - 128 := by
  have hF := F.isLt
  rw [centre, BitVec.toInt_ofInt, Int.bmod_eq_of_le] <;> split <;> omega

/-- Settles O47: the operation latches `centre`, whose signed value is exact. -/
theorem centerSubtracts : Obligations.CenterSubtracts :=
  fun s _ => ⟨_, rfl, rfl, centre_toInt _ s.latch.field⟩

/-! ### Scaling to full deflection: the rounded quotient of `v * k` by `n`, for `0 < n ≤ k` -/

/-- Dividends that differ by the divisor or more are not rounded to one integer. -/
theorem roundHaz_lt_of_add_le {p p' q : Int} (hq : 0 < q) (h : p + q ≤ p') : roundHaz p q < roundHaz p' q := by
  have hnear := roundHazIsNearest p q hq
  have hnear' := roundHazIsNearest p' q hq
  exact lt_of_mul_lt_mul_right (by omega : roundHaz p q * q < roundHaz p' q * q) hq.le

/-- Each unit of `v` adds `k / n ≥ 1` before rounding (R152). -/
theorem roundHaz_mul_strictMono {n k : Int} (hn : 0 < n) (hk : n ≤ k) : StrictMono fun v : Int => roundHaz (v * k) n := by
  intro v w hvw
  have hstep : (v + 1) * k ≤ w * k := Int.mul_le_mul_of_nonneg_right hvw (by omega)
  exact roundHaz_lt_of_add_le hn (by linarith)

@[simp] theorem roundHaz_zero (q : Int) : roundHaz 0 q = 0 := by
  simp [roundHaz]

/-- An exact quotient is not changed by the rounding. -/
theorem roundHaz_mul_self {n k : Int} (hn : 0 < n) (hk : 0 ≤ k) : roundHaz (n * k) n = k := by
  have hbounds := roundHaz_mul_bounds (Int.mul_nonneg hn.le hk) hn
  have hlow : (k - 1) * n < roundHaz (n * k) n * n := by linarith
  have hhigh : roundHaz (n * k) n * n < (k + 1) * n := by linarith
  have hlow := lt_of_mul_lt_mul_right hlow hn.le
  have hhigh := lt_of_mul_lt_mul_right hhigh hn.le
  omega

/-! ### The signed deflection that `CAL` offsets by 128 (R145) -/

/-- `q` of R145 for the updated bounds. -/
def deflection (mx mn v : Int) : Int := if 0 < v then roundHaz (v * 127) mx else roundHaz (v * 128) (-mn)

section
variable {mx mn v : Int}

theorem deflection_of_pos (hv : 0 < v) : deflection mx mn v = roundHaz (v * 127) mx := if_pos hv

theorem deflection_of_nonpos (hv : v ≤ 0) : deflection mx mn v = roundHaz (v * 128) (-mn) := if_neg hv.not_gt

@[simp] theorem deflection_zero : deflection mx mn 0 = 0 := by
  simp [deflection_of_nonpos le_rfl]

theorem deflection_upper (hmx : 0 < mx) : deflection mx mn mx = 127 := by
  rw [deflection_of_pos hmx, roundHaz_mul_self hmx (by decide)]

theorem deflection_lower (hmn : mn < 0) : deflection mx mn mn = -128 := by
  have hneg : mn * 128 = -(-mn * 128) := by ring
  rw [deflection_of_nonpos hmn.le, hneg, roundHaz_neg, roundHaz_mul_self (by omega) (by decide)]

/-- The byte is strictly increasing within each branch, and 0 separates the two (R147, R152). -/
theorem deflection_strictMono (hmx : 0 < mx) (hmx' : mx ≤ 127) (hmn : mn < 0) (hmn' : -128 ≤ mn) :
    StrictMono (deflection mx mn) := by
  have hup := roundHaz_mul_strictMono hmx hmx'
  have hdown : StrictMono fun v : Int => roundHaz (v * 128) (-mn) := roundHaz_mul_strictMono (by omega) (by omega)
  intro v w hvw
  obtain hw | hw := le_or_gt w 0
  · rw [deflection_of_nonpos hw, deflection_of_nonpos (hvw.le.trans hw)]
    exact hdown hvw
  obtain hv | hv := le_or_gt v 0
  · calc deflection mx mn v
      _ ≤ 0 := by simpa [deflection_of_nonpos hv] using hdown.monotone hv
      _ < deflection mx mn w := by simpa [deflection_of_pos hw] using hup hw
  · rw [deflection_of_pos hv, deflection_of_pos hw]
    exact hup hvw

theorem deflection_pos_iff (hmono : StrictMono (deflection mx mn)) : 0 < deflection mx mn v ↔ 0 < v := by
  simpa using hmono.lt_iff_lt (a := 0) (b := v)

theorem deflection_neg_iff (hmono : StrictMono (deflection mx mn)) : deflection mx mn v < 0 ↔ v < 0 := by
  simpa using hmono.lt_iff_lt (a := v) (b := 0)

/-- No clamp is needed (R147). Of the two bounds only the one whose branch is taken has to be away from zero: the other
may be replaced by 127. -/
theorem deflection_range (hmx : mx ≤ 127) (hmn : mn < 0) (hmn' : -128 ≤ mn) (hlow : mn ≤ v) (hup : v ≤ mx) :
    -128 ≤ deflection mx mn v ∧ deflection mx mn v ≤ 127 := by
  have hrange : ∀ m, 0 < m → m ≤ 127 → v ≤ m → -128 ≤ deflection m mn v ∧ deflection m mn v ≤ 127 := by
    intro m hm hm' hvm
    have hmono := (deflection_strictMono hm hm' hmn hmn').monotone
    exact ⟨(deflection_lower hmn).ge.trans (hmono hlow), (hmono hvm).trans (deflection_upper hm).le⟩
  obtain hv | hv := le_or_gt v 0
  · rw [deflection_of_nonpos hv, ← deflection_of_nonpos (mx := 127) hv]
    exact hrange 127 (by decide) le_rfl (by omega)
  · exact hrange mx (hv.trans_le hup) hmx hup

/-- R146's integer formula for the byte. -/
theorem deflection_add (hmn : mn < 0) (hup : v ≤ mx) :
    deflection mx mn v + 128 =
      if 0 < v then 128 + (2 * v * 127 + mx) / (2 * mx) else 128 - (2 * (-v) * 128 + (-mn)) / (2 * (-mn)) := by
  split
  next hv =>
    rw [deflection_of_pos hv, roundHaz_of_nonneg (by omega) (by omega), Int.mul_assoc, Int.add_comm]
  next hv =>
    have hneg : v * 128 = -(-v * 128) := by ring
    rw [deflection_of_nonpos (by omega), hneg, roundHaz_neg, roundHaz_of_nonneg (by omega) (by omega), Int.mul_assoc]
    ring

end

/-! ### The byte of `CAL` -/

theorem byte_toInt_bounds (x : Byte) : -128 ≤ x.toInt ∧ x.toInt ≤ 127 := by
  have hlow := x.le_toInt
  have hup := x.toInt_lt
  omega

/-- The byte is the deflection on the updated bounds, offset by 128 without truncation (R145, R153). -/
theorem calByte_toNat (mx v : Byte) {mn : Byte} (hmn : mn.toInt < 0) :
    ((calByte mx mn v).toNat : Int) = deflection (max mx.toInt v.toInt) (min mn.toInt v.toInt) v.toInt + 128 := by
  have hmx := byte_toInt_bounds mx
  have hmn' := byte_toInt_bounds mn
  have hv := byte_toInt_bounds v
  have hrange := deflection_range (mx := max mx.toInt v.toInt) (mn := min mn.toInt v.toInt) (v := v.toInt)
    (by omega) (by omega) (by omega) (by omega) (by omega)
  have hbyte : calByte mx mn v = BitVec.ofInt 8 (deflection (smax mx v).toInt (smin mn v).toInt v.toInt + 128) := rfl
  rw [hbyte, BitVec.toNat_ofInt, smax_toInt, smin_toInt]
  omega

/-- Settles O49: the deflection is 0 at 0, rises strictly, and is full at the updated bounds. -/
theorem calRange : Obligations.CalRange := by
  intro mx mn v hmn hmx
  have hmxb := byte_toInt_bounds mx
  have hmnb := byte_toInt_bounds mn
  have hvb := byte_toInt_bounds v
  have hbyte := calByte_toNat mx v hmn
  have hmono : StrictMono (deflection (max mx.toInt v.toInt) (min mn.toInt v.toInt)) :=
    deflection_strictMono (by omega) (by omega) (by omega) (by omega)
  refine ⟨fun hv => ?above, fun hv => ?neutral, fun hv => ?below, fun hv => ?upper, fun hv => ?lower⟩
  case above =>
    have hpos := (deflection_pos_iff hmono).mpr hv
    omega
  case neutral =>
    rw [hv, deflection_zero] at hbyte
    omega
  case below =>
    have hneg := (deflection_neg_iff hmono).mpr hv
    omega
  case upper =>
    rw [max_eq_right hv, deflection_upper (by omega)] at hbyte
    omega
  case lower =>
    rw [min_eq_right hv, deflection_lower (by omega)] at hbyte
    omega

/-- Settles O50: a deviation within the bounds leaves them as they are, so both bytes are on one rising function. -/
theorem calMonotone : Obligations.CalMonotone := by
  intro mx mn v w hmn hmx hlow hvw hup
  have hmono := deflection_strictMono hmx (byte_toInt_bounds mx).2 hmn (byte_toInt_bounds mn).1 hvw
  have hv := calByte_toNat mx v hmn
  have hw := calByte_toNat mx w hmn
  rw [max_eq_left (by omega), min_eq_left (by omega)] at hv hw
  omega

/-! ### The operation `CAL` -/

/-- A negative lower bound keeps both divisors away from zero (R32 (a)). -/
theorem State.calReady_of_neg {s : State} {a : Fin 4} (v : Byte) (h : s.calMin[a].toInt < 0) : s.calReady a v = true := by
  simp only [State.calReady, calDefined, smin_toInt, decide_eq_true_eq]
  omega

theorem exec_cal_eq {s : State} {a : BitVec 2} (h : s.calReady a.toFin s.latch.centred = true) :
    exec (.cal a) s = .next { s.widen a.toFin s.latch.centred with
      latch := { s.latch with out := s.calOutput a.toFin s.latch.centred } } :=
  if_pos h

section
variable (s : State) (a : Fin 4) (v : Byte)

@[simp] theorem State.widen_calMax_self : (s.widen a v).calMax[a] = smax s.calMax[a] v :=
  Vector.getElem_set_self _

@[simp] theorem State.widen_calMin_self : (s.widen a v).calMin[a] = smin s.calMin[a] v :=
  Vector.getElem_set_self _

theorem State.widen_bounds_of_ne {b : Fin 4} (h : b.val ≠ a.val) :
    (s.widen a v).calMax[b] = s.calMax[b] ∧ (s.widen a v).calMin[b] = s.calMin[b] :=
  ⟨Vector.getElem_set_ne a.isLt _ h.symm, Vector.getElem_set_ne a.isLt _ h.symm⟩

end

/-- Settles O48: `State.widen` and `State.calOutput` by the numbers. -/
theorem calRescales : Obligations.CalRescales := by
  intro s a hmn
  have hmax := congrArg BitVec.toInt (s.widen_calMax_self a.toFin s.latch.centred)
  have hmin := congrArg BitVec.toInt (s.widen_calMin_self a.toFin s.latch.centred)
  rw [smax_toInt] at hmax
  rw [smin_toInt] at hmin
  refine ⟨_, exec_cal_eq (State.calReady_of_neg s.latch.centred hmn), hmax, hmin, ?_,
    fun b => s.widen_bounds_of_ne a.toFin s.latch.centred, rfl⟩
  refine (calByte_toNat s.calMax[a.toFin] s.latch.centred hmn).trans ?_
  rw [deflection_add (by omega) (by omega), ← hmax, ← hmin]

/-! ### `TRIG` -/

theorem exec_trig_eq {s : State} (t : BitVec 1) (h : s.cfg.hasTriggers = true) :
    exec (.trig t) s = .next { s with
      report := { s.report with trg := s.report.trg.set t.toNat (triggerField s.raw t.toFin) t.isLt } } :=
  if_pos h

/-- Settles O52: the trigger's field by the numbers of R67 at index `t`, the other trigger by the frame of `Vector.set`. -/
theorem trigWritesTrigger : Obligations.TrigWritesTrigger := by
  intro s t h
  refine ⟨_, exec_trig_eq t h, ?_, fun k hk => Vector.getElem_set_ne t.isLt _ hk.symm, rfl⟩
  refine (congrArg BitVec.toNat (Vector.getElem_set_self t.isLt)).trans ?_
  obtain rfl | rfl := BitVec.eq_zero_or_eq_one t
  · exact fieldT0_toNat s.raw
  · exact fieldT1_toNat s.raw

/-! ### Refused operations (log entries 13 and 14) -/

theorem exec_trig_without_triggers {s : State} (t : BitVec 1) (h : s.cfg.hasTriggers = false) :
    exec (.trig t) s = .refused .noTriggers :=
  if_neg (by simp [h])

theorem exec_field_without_triggers {s : State} {f : BitVec 3} (hf : f = 4#3 ∨ f = 5#3) (h : s.cfg.hasTriggers = false) :
    exec (.field f) s = .refused .noTriggers := by
  obtain rfl | rfl := hf <;> exact if_neg (by simp [h])

theorem exec_dec_of_six_le {i : BitVec 3} (s : State) (hi : 6 ≤ i.toNat) :
    exec (.dec i) s = .refused .indexDoesNotOccur :=
  dif_neg hi.not_gt

theorem exec_field_of_six_le {f : BitVec 3} (s : State) (hf : 6 ≤ f.toNat) :
    exec (.field f) s = .refused .indexDoesNotOccur :=
  (dif_neg (by omega)).trans (dif_neg (by omega))

/-- Settles O55: each refusal is the last branch of its operation. -/
theorem absentOperationsRefused : Obligations.AbsentOperationsRefused :=
  ⟨fun _ t h => exec_trig_without_triggers t h, fun _ _ h hf => exec_field_without_triggers hf h,
    fun s _ hi => ⟨exec_dec_of_six_le s hi, exec_field_of_six_le s hi⟩⟩

end Sys2Proof.Machine
end

