-- ==== Sys2Proof/Proofs/ButtonPacker.lean ====
section
/-! The button packer: `SETBTN` (R160) and `PACK` (R161 to R163). -/

namespace Sys2Proof.Machine

/-- Settles O53: `setButton` by its sixteen bits. -/
theorem setbtnWritesOneBit : Obligations.SetbtnWritesOneBit :=
  fun s i v => ⟨_, rfl, fun k => setButton_getLsbD s.report.btn i v k.val k.isLt, rfl⟩

section
variable (v : Fin 15 → Bool) (btn : Vector Byte 2) (i : Fin 15)

/-- Each `SETBTN` writes its own bit alone, so of a row of them a bit keeps the value its own index was given. -/
theorem foldl_setButton_getLsbD (is : List (Fin 15)) :
    let packed := is.foldl (fun b (k : Fin 15) => setButton b (BitVec.ofNat 4 k.val) (v k)) btn
    (packed[1] ++ packed[0]).getLsbD i.val = if i ∈ is then v i else (btn[1] ++ btn[0]).getLsbD i.val := by
  induction is generalizing btn with
  | nil => simp
  | cons k is ih =>
    have hk : (BitVec.ofNat 4 k.val).toNat = k.val := Nat.mod_eq_of_lt (by omega)
    have hwrite := setButton_getLsbD btn (BitVec.ofNat 4 k.val) (v k) i.val (by omega)
    rw [hk] at hwrite
    refine (ih _).trans ?_
    rw [hwrite]
    by_cases hik : i = k
    · simp [hik]
    · simp [hik, Fin.val_inj]

end

theorem mem_logicalButtons (i : Fin 15) : i ∈ logicalButtons := by
  revert i
  decide

/-- The law of the family (R163) for the fifteen buttons: writing index 15 last leaves them as they are. -/
theorem packButtons_getLsbD (c : Config) (d : Vector Byte 6) (btn : Vector Byte 2) (i : Fin 15) :
    ((packButtons c d btn)[1] ++ (packButtons c d btn)[0]).getLsbD i.val = !sourceBit d c.btnSrc[i] := by
  have hne : i.val ≠ (15#4).toNat := i.isLt.ne
  rw [packButtons, setButton_getLsbD _ _ _ _ (by omega), if_neg hne,
    foldl_setButton_getLsbD (fun k => !sourceBit d c.btnSrc[k]), if_pos (mem_logicalButtons i)]

/-- Settles O54: the fifteen inverted sources, then button 15 cleared. -/
theorem packInvertsSources : Obligations.PackInvertsSources :=
  fun s => ⟨_, rfl, packButtons_getLsbD s.cfg s.raw s.report.btn, setButton_fifteen _, rfl⟩

end Sys2Proof.Machine
end

