-- ==== Sys2Proof/Proofs/PollCycle.lean ====
section
/-! The command port in IDLE (R170, R72), an accepted command (R172, R173), and the steps of SETTLE, DECODE and SIGCHK (R175 to
R177, R250). -/

namespace Sys2Proof.Machine

/-! ### The command port -/

section
variable {s : State}

theorem State.fetchCommand_of_command {i : Instr} (hvalid : s.inp.cmdValid = true)
    (hdec : decode (.hostCmd s.inp.cmdOp) = .ok i) : s.fetchCommand = .run i s := by
  simp [State.fetchCommand, hvalid, hdec]

theorem State.fetchCommand_of_ignored (h : s.inp.cmdValid = false ∨ s.inp.cmdOp = 0#2 ∨ s.inp.cmdOp = 3#2) :
    s.fetchCommand = .quiet s := by
  obtain hvalid | hop | hop := h
  · simp [State.fetchCommand, hvalid]
  all_goals simp [State.fetchCommand, hop, decode, decodeHostCmd]

theorem step_of_idle (hwf : s.cfg.wf = true) (hslot : s.slot = none) (hl : s.seqLegal = true)
    (hrst : s.sample.inp.rst = false) (hidle : s.ph = .idle) : step s = s.sample.fetchCommand.outcome := by
  rw [step_eq_outcome s hwf hslot]
  simp [State.fetchTick, hrst, hl, hidle, Phase.operation]

end

/-- Settles O7: in IDLE the tick fetches from the command port. -/
theorem stepRunsHostCommand : Obligations.StepRunsHostCommand := by
  intro s hwf hslot hl hrst hidle
  rw [step_of_idle hwf hslot hl hrst hidle]
  refine ⟨fun i hvalid hdec => ?_, fun hignored => ?_⟩
  · rw [State.fetchCommand_of_command hvalid hdec]
    rfl
  · rw [State.fetchCommand_of_ignored hignored]
    rfl

theorem exec_command_of_ready {s : State} (h : s.cmdReady = true) :
    exec .init s = .next (s.clearRecord.beginPhase .init) ∧ exec .poll s = .next (s.clearRecord.beginPhase .request) :=
  ⟨if_pos h, if_pos h⟩

/-- Settles O26: IDLE without a restart request is `cmd_ready`. -/
theorem commandsAccepted : Obligations.CommandsAccepted :=
  fun s hidle hreq => exec_command_of_ready (s := s) (by simp [State.cmdReady, hidle, hreq])

/-! ### SETTLE, DECODE and SIGCHK -/

/-- Settles O39: the branch of the operation is whether one more tick empties the timer. -/
theorem settleCountsThenFetches : Obligations.SettleCountsThenFetches :=
  fun s => ⟨fun hmore => if_neg (by omega : ¬ s.tmr - 1 = 0), fun hlast => if_pos (by omega : s.tmr - 1 = 0)⟩

/-- Settles O40: each byte of `decodeSix` is `decByte` of the byte. -/
theorem decodePhaseDecodesAll : Obligations.DecodePhaseDecodesAll :=
  fun s => ⟨_, rfl, fun j => (congrArg BitVec.toNat (decodeSix_getElem s.raw j j.isLt)).trans (decByte_toNat _), rfl⟩

/-- Settles O41: the branch of the operation is whether the sample is the signature. -/
theorem sigchkDecides : Obligations.SigchkDecides := by
  intro s
  rw [← isSignature_iff]
  exact ⟨fun hsig => if_pos hsig, fun ⟨j, hj⟩ => if_neg fun hsig => hj ((isSignature_iff s.raw).mp hsig j)⟩

end Sys2Proof.Machine
end

