-- ==== Sys2Proof/Proofs/Commit.lean ====
section
/-! The COMMIT step (R178): what it writes, and that this is what FIELD, CENTER, CAL and PACK give one after the other. -/

namespace Sys2Proof.Machine

section
variable {s : State}

theorem State.commitReady_iff :
    s.commitReady = true ↔ ∀ a : Fin 4, s.calReady a (axisDeviation s.cfg s.raw a) = true := by
  simp [State.commitReady, Fin.forall_fin_succ, and_assoc]

theorem State.commitReady_of_neg (h : ∀ a : Fin 4, s.calMin[a].toInt < 0) : s.commitReady = true :=
  State.commitReady_iff.mpr fun a => State.calReady_of_neg _ (h a)

theorem State.commitReport_ax_getElem (a : Fin 4) :
    s.commitReport.report.ax[a] = s.calOutput a (axisDeviation s.cfg s.raw a) := by
  fin_cases a <;> rfl

theorem exec_phCommit_eq (h : s.commitReady = true) : exec .phCommit s = .next (s.commitReport.finish true) :=
  if_pos h

theorem exec_phCommit_inv {u : State} (h : exec .phCommit s = .next u) :
    s.commitReady = true ∧ u = s.commitReport.finish true := by
  simp only [exec, execPhCommit] at h
  split at h <;> cases h
  next hready => exact ⟨hready, rfl⟩

end

/-- Settles O42: the bounds and the axis bytes axis by axis, the buttons by the law of `PACK`. -/
theorem commitWritesReport : Obligations.CommitWritesReport := by
  intro s hneg
  refine ⟨_, exec_phCommit_eq (State.commitReady_of_neg hneg), fun a => ⟨?max, ?min, s.commitReport_ax_getElem a⟩,
    fun htrig => if_pos htrig, packButtons_getLsbD s.cfg s.raw s.report.btn, setButton_fifteen _, ?frame⟩
  case max => rw [State.finish_calMax, State.commitReport_calMax_getElem, smax_toInt]
  case min => rw [State.finish_calMin, State.commitReport_calMin_getElem, smin_toInt]
  case frame => cases htrig : s.cfg.hasTriggers <;> simp [State.finish, State.commitReport, htrig]

/-! ### The datapath operations in a row -/

theorem fieldValue_of_axis (d : Vector Byte 6) (a : BitVec 2) : fieldValue d (a.setWidth 3) = axisField d a.toFin := by
  have ha : (a.setWidth 3).toNat = a.toNat := BitVec.toNat_setWidth_of_le (by decide)
  have hlt : (a.setWidth 3).toNat < 4 := ha ▸ a.isLt
  rw [fieldValue, dif_pos hlt]
  exact congrArg (axisField d) (Fin.ext ha)

/-- Settles O43: FIELD and CENTER latch the deviation of the axis, on which COMMIT's bounds and byte are CAL's. -/
theorem commitIsTheDatapath : Obligations.CommitIsTheDatapath := by
  intro s u a h
  obtain ⟨hready, rfl⟩ := exec_phCommit_inv h
  have hfield : exec (.field (a.setWidth 3)) s =
      .next { s with latch := { s.latch with field := axisField s.raw a.toFin } } := by
    rw [exec_field_eq (.inl (by simp; omega)), fieldValue_of_axis]
  refine ⟨_, _, _, _, hfield, rfl, exec_cal_eq (State.commitReady_iff.mp hready a.toFin), rfl,
    s.commitReport_ax_getElem a.toFin, ?max, ?min, rfl⟩
  case max => exact (s.commitReport_calMax_getElem a.toFin).trans (s.widen_calMax_self a.toFin _).symm
  case min => exact (s.commitReport_calMin_getElem a.toFin).trans (s.widen_calMin_self a.toFin _).symm

end Sys2Proof.Machine
end

