-- ==== Sys2Proof/Proofs/Completion.lean ====
section
/-! Every command completes (R171, R250, R251): a state that meets the invariant has a next one, and each tick of a running
command lessens `State.remainingTicks`. -/

namespace Sys2Proof.Machine

/-! ### The invariant answers (R222) -/

section
variable {s : State} {i : Instr}

theorem exec_command_answers (h : i = .init ∨ i = .poll) : ∃ t, exec i s = .next t := by
  cases hready : s.cmdReady with
  | true =>
    obtain ⟨hinit, hpoll⟩ := exec_command_of_ready hready
    rcases h with rfl | rfl
    · exact ⟨_, hinit⟩
    · exact ⟨_, hpoll⟩
  | false => rcases h with rfl | rfl <;> exact ⟨s, if_neg (by simp [hready])⟩

theorem State.fetchCommand_answers (s : State) : ∃ t, s.fetchCommand.outcome = .next t := by
  cases hvalid : s.inp.cmdValid with
  | false => exact ⟨s, by rw [State.fetchCommand_of_ignored (.inl hvalid)]; rfl⟩
  | true =>
    cases hdec : decode (.hostCmd s.inp.cmdOp) with
    | ok i =>
      rw [State.fetchCommand_of_command hvalid hdec]
      exact exec_command_answers (command_of_decode_hostCmd hdec)
    | error e => exact ⟨s, by simp [State.fetchCommand, hvalid, hdec, Fetched.outcome]⟩

/-- R32 (a): the seed is at least 1, so the bounds that enclose it are on both sides of 0. -/
theorem State.Inv.calMin_neg (hs : s.Inv) (a : Fin 4) : s.calMin[a].toInt < 0 := by
  obtain ⟨hwf, -, -, hbounds, -⟩ := hs
  have hseed : 1 ≤ s.cfg.calSeed := by simp_all [Config.wf]
  have hmin := (hbounds a).2
  omega

theorem exec_operation_answers (hs : s.Inv) (hop : s.ph.operation = some i) : ∃ t, exec i s = .next t := by
  obtain ⟨-, -, hl, -⟩ := id hs
  cases hp : s.ph <;> rw [hp] at hop <;> cases hop
  case settle =>
    rcases Nat.lt_or_ge 1 s.tmr with hmore | hlast
    · exact ⟨_, (settleCountsThenFetches s).1 hmore⟩
    · exact ⟨_, (settleCountsThenFetches s).2 hlast⟩
  case decode => exact ⟨_, rfl⟩
  case sigchk =>
    cases hsig : isSignature s.raw
    · exact ⟨_, if_neg (by simp [hsig])⟩
    · exact ⟨_, if_pos hsig⟩
  case commit => exact ⟨_, exec_phCommit_eq (State.commitReady_of_neg hs.calMin_neg)⟩
  case init | request | fetch =>
    have hrun : s.tx ≠ .tOff := fun hx => by simp [State.seqLegal, hp, hx] at hl
    exact ⟨_, exec_operation_of_legal hl hrun (by rw [hp]; rfl)⟩

theorem step_answers (hs : s.Inv) : ∃ t, step s = .next t := by
  obtain ⟨hwf, hslot, hl, -⟩ := id hs
  cases hrst : s.sample.inp.rst with
  | true => exact ⟨_, WaitsAt.step_of_reset hwf ⟨rfl, hslot, rfl, rfl, rfl⟩ hrst⟩
  | false =>
    cases hop : s.ph.operation with
    | none =>
      have hidle : s.ph = .idle := by cases hp : s.ph <;> simp_all [Phase.operation]
      rw [step_of_idle hwf hslot hl hrst hidle]
      exact s.sample.fetchCommand_answers
    | some i =>
      have hstep : step s = exec i s.sample := by
        rw [step_eq_outcome s hwf hslot]
        simp [State.fetchTick, hrst, hl, hop, Fetched.outcome]
      rw [hstep]
      exact exec_operation_answers (State.sample_inv hs) (by rwa [State.sample_ph])

end

/-! ### The bound along a transaction -/

/-- The data bytes of the phase's transaction, sent or received (R64). -/
def Phase.byteCount (p : Phase) : Nat := if p.dir then receiveLength else p.sendBytes.length

theorem Phase.byteCount_bounds {p : Phase} (htr : p.transacts = true) : 1 ≤ p.byteCount ∧ p.byteCount ≤ 6 := by
  rcases (Phase.transacts_iff _).mp htr with rfl | rfl | rfl <;> decide

/-- The ticks that a phase with a transaction has before it when the transaction has ended. -/
def Phase.ticksAfter (c : Config) : Phase → Nat
  | .request => max 1 c.settle + 8 * c.timeout + 3
  | .fetch => 3
  | _ => 0

/-- In `u` the transaction of `s` begins a wait (R250). -/
structure BeginsWait (s u : State) : Prop where
  cfg : u.cfg = s.cfg
  ph : u.ph = s.ph
  tmr : u.tmr = s.cfg.timeout

section
variable {s u : State} (htr : s.ph.transacts = true)
include htr

/-- One wait for START, one for the address, one for each data byte (R64, R111, R112). -/
theorem State.waitsAfter_eq :
    (s.tx = .tStart → s.waitsAfter = s.ph.byteCount + 1) ∧ (s.tx = .tAddr → s.waitsAfter = s.ph.byteCount) ∧
      (s.tx = .tData → s.waitsAfter = s.ph.byteCount - 1 - s.idx.toNat) := by
  rcases (Phase.transacts_iff _).mp htr with hp | hp | hp <;> refine ⟨fun hx => ?_, fun hx => ?_, fun hx => ?_⟩ <;>
    simp [State.waitsAfter, Phase.byteCount, Phase.dir, Phase.sendBytes, receiveLength, hp, hx]

theorem State.remainingTicks_of_transacts :
    s.remainingTicks = s.tmr + s.waitsAfter * s.cfg.timeout + s.ph.ticksAfter s.cfg := by
  rcases (Phase.transacts_iff _).mp htr with hp | hp | hp <;> simp [State.remainingTicks, Phase.ticksAfter, hp]

/-- The next wait is one of those that were to follow. -/
theorem State.remainingTicks_nextWait (hu : BeginsWait s u) (hw : s.waitsAfter = u.waitsAfter + 1) :
    u.remainingTicks + s.tmr = s.remainingTicks := by
  obtain ⟨hc, hp, ht⟩ := hu
  rw [State.remainingTicks_of_transacts htr, State.remainingTicks_of_transacts (hp ▸ htr), hc, hp, ht, hw]
  ring

/-- `Complete(true)` leads to the ticks after the transaction (R171, R250). -/
theorem State.remainingTicks_complete : (s.complete true).remainingTicks = s.ph.ticksAfter s.cfg := by
  rcases (Phase.transacts_iff _).mp htr with hp | hp | hp <;>
    simp [State.complete, State.remainingTicks, Phase.ticksAfter, hp]

theorem State.remainingTicks_lastWait (hw : s.waitsAfter = 0) (hc : u.cfg = s.cfg) (hp : u.ph = s.ph) :
    (u.complete true).remainingTicks + s.tmr = s.remainingTicks := by
  rw [State.remainingTicks_of_transacts htr, State.remainingTicks_complete (hp ▸ htr), hw, hc, hp]
  ring

end

section
variable {s : State}

/-- R115: the byte or the READ that follows the address. -/
theorem State.remainingTicks_advance_address (r : Byte) (htr : s.ph.transacts = true) (hx : s.tx = .tAddr) :
    (s.advance r).remainingTicks + s.tmr = s.remainingTicks := by
  have hbytes := Phase.byteCount_bounds htr
  have hwaits := (State.waitsAfter_eq htr).2.1 hx
  have hnext {u : State} (hu : BeginsWait s u) (hux : u.tx = .tData) (hi : u.idx = 0#3) :
      u.remainingTicks + s.tmr = s.remainingTicks := by
    refine State.remainingTicks_nextWait htr hu ?_
    rw [(State.waitsAfter_eq (hu.ph ▸ htr)).2.2 hux, hwaits, hu.ph, hi, BitVec.toNat_ofNat]
    omega
  cases hd : s.ph.dir with
  | false =>
    rw [State.advance_sendAddress r hx hd rfl]
    exact hnext ⟨rfl, rfl, rfl⟩ rfl rfl
  | true =>
    rw [State.advance_receiveAddress r hx hd]
    exact hnext ⟨rfl, rfl, rfl⟩ rfl rfl

/-- R116, R117: the next data byte, or the end of the transaction. -/
theorem State.remainingTicks_advance_data (r : Byte) (htr : s.ph.transacts = true) (hx : s.tx = .tData) :
    (s.advance r).remainingTicks + s.tmr = s.remainingTicks := by
  have hbytes := Phase.byteCount_bounds htr
  have hwaits := (State.waitsAfter_eq htr).2.2 hx
  rcases Nat.lt_or_ge (s.idx.toNat + 1) s.ph.byteCount with hmore | hlast
  · have hnext {u : State} (hu : BeginsWait s u) (hux : u.tx = .tData) (hi : u.idx = s.idx + 1#3) :
        u.remainingTicks + s.tmr = s.remainingTicks := by
      refine State.remainingTicks_nextWait htr hu ?_
      rw [(State.waitsAfter_eq (hu.ph ▸ htr)).2.2 hux, hwaits, hu.ph, hi, toNat_add_one (by omega)]
      omega
    cases hd : s.ph.dir with
    | false =>
      rw [State.advance_sent r hx hd (by simpa [Phase.byteCount, hd] using hmore) rfl]
      exact hnext ⟨rfl, rfl, rfl⟩ rfl rfl
    | true =>
      rw [State.advance_received r hx hd (by simpa [Phase.byteCount, hd] using hmore)]
      exact hnext ⟨rfl, rfl, rfl⟩ rfl rfl
  · have hend {u : State} : u.cfg = s.cfg → u.ph = s.ph → (u.complete true).remainingTicks + s.tmr = s.remainingTicks :=
      State.remainingTicks_lastWait htr (by omega)
    cases hd : s.ph.dir with
    | false =>
      rw [State.advance_sentLast r hx hd (by simpa [Phase.byteCount, hd] using hlast)]
      exact hend rfl rfl
    | true =>
      rw [State.advance_receivedLast r hx hd (by simpa [Phase.byteCount, hd] using hlast) rfl]
      cases s.cfg.recvStop <;> exact hend rfl rfl

/-- A verified answer takes off the bound just what the timer of its wait still has. -/
theorem State.remainingTicks_advance (r : Byte) (hl : s.seqLegal = true) (hrun : s.tx ≠ .tOff) :
    (s.advance r).remainingTicks + s.tmr = s.remainingTicks := by
  have htr := State.transacts_of_legal hl hrun
  cases hx : s.tx with
  | tOff => exact absurd hx hrun
  | tStart =>
    have hnext {u : State} (hu : BeginsWait s u) (hux : u.tx = .tAddr) : u.remainingTicks + s.tmr = s.remainingTicks := by
      refine State.remainingTicks_nextWait htr hu ?_
      rw [(State.waitsAfter_eq htr).1 hx, (State.waitsAfter_eq (hu.ph ▸ htr)).2.1 hux, hu.ph]
    rw [State.advance_start r hx (State.idx_of_tStart hl hx)]
    exact hnext ⟨rfl, rfl, rfl⟩ rfl
  | tAddr => exact State.remainingTicks_advance_address r htr hx
  | tData => exact State.remainingTicks_advance_data r htr hx

/-! ### The bound along every tick -/

theorem State.remainingTicks_of_idle (hidle : s.ph = .idle) : s.remainingTicks = 0 := by
  simp [State.remainingTicks, hidle]

@[simp] theorem State.sample_remainingTicks : s.sample.remainingTicks = s.remainingTicks := by
  simp [State.remainingTicks, State.waitsAfter]

theorem State.Inv.remainingTicks_pos (hs : s.Inv) (hbusy : s.ph ≠ .idle) : 0 < s.remainingTicks := by
  obtain ⟨-, -, hl, -, -, -, -, ⟨htmr, -⟩, -⟩ := hs
  by_cases hrun : s.tx = .tOff
  · have hquiet := State.quiet_of_legal hl hrun
    cases hp : s.ph <;> simp_all [State.remainingTicks, Phase.transacts]
  · have hleft := (htmr hrun).1
    rw [State.remainingTicks_of_transacts (State.transacts_of_legal hl hrun)]
    omega

/-- R250, R95: the answer ends the wait, the last tick ends the command, and any other counts the timer down. -/
theorem State.Inv.waitTick_progresses (hs : s.Inv) (hrun : s.tx ≠ .tOff) : s.waitTick.remainingTicks < s.remainingTicks := by
  obtain ⟨-, -, hl, -, -, -, -, ⟨htmr, -⟩, -⟩ := id hs
  have hleft := (htmr hrun).1
  have htr := State.transacts_of_legal hl hrun
  have habort (n : Nat) (c : ErrClass) : ({ s with tmr := n }.abort c).remainingTicks < s.remainingTicks := by
    rw [State.abort_registers (s := { s with tmr := n }) c htr, State.remainingTicks_of_idle rfl]
    exact hs.remainingTicks_pos (Phase.ne_of_transacts htr rfl)
  rcases s.waitTick_cases with ⟨-, h⟩ | ⟨-, -, h⟩ | ⟨-, hmore, h⟩ <;> rw [h]
  · rcases s.answerStep_cases (.done s.inp.drvStatus s.inp.drvRdata) with ⟨st, rd, -, -, h⟩ | ⟨st, rd, -, -, h⟩ | ⟨h, -⟩
    · have hadvance := State.remainingTicks_advance rd hl hrun
      rw [h]
      omega
    · rw [h]
      exact habort s.tmr _
    · cases h
  · exact habort 0 _
  · have hcount : ({ s with tmr := s.tmr - 1 } : State).remainingTicks =
        s.tmr - 1 + s.waitsAfter * s.cfg.timeout + s.ph.ticksAfter s.cfg :=
      State.remainingTicks_of_transacts (s := { s with tmr := s.tmr - 1 }) htr
    rw [hcount, State.remainingTicks_of_transacts htr]
    omega

theorem execPhSettle_progresses {t : State} (hp : s.ph = .settle) (h : execPhSettle s = .next t) :
    t.remainingTicks < s.remainingTicks := by
  rcases Nat.lt_or_ge 1 s.tmr with hmore | hlast
  · cases ((settleCountsThenFetches s).1 hmore).symm.trans h
    simp only [State.remainingTicks, hp]
    omega
  · cases ((settleCountsThenFetches s).2 hlast).symm.trans h
    simp only [State.remainingTicks, State.waitsAfter, hp]
    omega

/-- The operation of the phase in `PH`: a tick of its wait, or one of the four steps without a wait (R171). -/
theorem State.Inv.operation_progresses {t : State} {i : Instr} (hs : s.Inv) (hop : s.ph.operation = some i)
    (h : exec i s = .next t) : t.remainingTicks < s.remainingTicks := by
  obtain ⟨-, -, hl, -⟩ := id hs
  rcases phase_cases hl hop h with ⟨hrun, -, rfl⟩ | ⟨hp, h⟩ | ⟨hp, h⟩ | ⟨hp, h⟩ | ⟨hp, h⟩
  · exact hs.waitTick_progresses hrun
  · exact execPhSettle_progresses hp h
  · cases h
    simp [State.remainingTicks, hp]
  · simp only [execPhSigchk] at h
    split at h <;> cases h <;> simp [State.remainingTicks, hp]
  · obtain ⟨-, rfl⟩ := exec_phCommit_inv h
    simp [State.remainingTicks, hp]

end

/-! ### The statements -/

/-- Settles O12: a reset tick leads to IDLE, where the bound is 0; any other runs the operation of the phase. -/
theorem busyTickProgresses : Obligations.BusyTickProgresses := by
  intro s t hs hbusy h
  obtain ⟨-, hslot, -⟩ := id hs
  obtain ⟨-, ⟨-, rfl⟩ | ⟨-, -, ⟨i, hop, h⟩ | ⟨hidle, -⟩ | ⟨hidle, -⟩⟩⟩ := step_cases hslot h
  · rw [State.remainingTicks_of_idle rfl]
    exact hs.remainingTicks_pos hbusy
  · simpa using (State.sample_inv hs).operation_progresses (by simpa using hop) h
  · exact absurd hidle hbusy
  · exact absurd hidle hbusy

/-- From every state of the invariant, by recursion on the bound. -/
theorem reaches_idle_within_remainingTicks (s : State) (hs : s.Inv) :
    ∃ k t, k ≤ s.remainingTicks ∧ core.run k s = .next t ∧ t.ph = .idle := by
  by_cases hidle : s.ph = .idle
  · exact ⟨0, s, Nat.zero_le _, rfl, hidle⟩
  · obtain ⟨u, hstep⟩ := step_answers hs
    have hless := busyTickProgresses s u hs hidle hstep
    obtain ⟨k, t, hk, hrun, ht⟩ := reaches_idle_within_remainingTicks u (stepKeepsInvariant s u hs hstep)
    exact ⟨k + 1, t, by omega, (run_succ_of_next (M := core) k hstep).trans hrun, ht⟩
termination_by s.remainingTicks

/-- Settles O13: the bound of a POLL is three waits of the REQUEST, SETTLE, eight waits of the FETCH and three steps. -/
theorem commandsComplete : Obligations.CommandsComplete := by
  refine ⟨fun s hs _ => reaches_idle_within_remainingTicks s hs, fun s t _ hready h => ?_⟩
  cases (exec_command_of_ready hready).2.symm.trans h
  simp only [State.remainingTicks, State.waitsAfter, State.beginPhase_ph, State.beginPhase_tx, State.beginPhase_tmr,
    State.beginPhase_cfg, State.clearRecord_cfg]
  omega

end Sys2Proof.Machine
end

