-- ==== Sys2Proof/Proofs/RestartRequest.lean ====
section
/-! No operation of the block is a fault (R222), and a standing restart request holds every register until reset (R206, R242,
R246). -/

namespace Sys2Proof.Machine

/-- Settles O11: a reset tick, the command port in IDLE and the operation of a busy phase each answer. -/
theorem stepAlwaysAnswers : Obligations.StepAlwaysAnswers := fun _ hs => step_answers hs

/-! ### A command that is not accepted (R170, R242) -/

section
variable {s : State} {i : Instr}

theorem State.cmdReady_of_restartReq (hreq : s.restartReq = true) : s.cmdReady = false := by
  simp [State.cmdReady, hreq]

theorem exec_command_of_not_ready (hready : s.cmdReady = false) (hi : i = .init ∨ i = .poll) : exec i s = .next s := by
  rcases hi with rfl | rfl <;> exact if_neg (by simp [hready])

/-- R170: whatever stands on the command port, an IDLE tick without `cmd_ready` leaves the sampled state. -/
theorem State.fetchCommand_of_not_ready (hready : s.cmdReady = false) : s.fetchCommand.outcome = .next s := by
  cases hvalid : s.inp.cmdValid with
  | false => rw [State.fetchCommand_of_ignored (.inl hvalid)]; rfl
  | true =>
    cases hdec : decode (.hostCmd s.inp.cmdOp) with
    | ok i =>
      rw [State.fetchCommand_of_command hvalid hdec]
      exact exec_command_of_not_ready hready (command_of_decode_hostCmd hdec)
    | error e => simp [State.fetchCommand, hvalid, hdec, Fetched.outcome]

end

/-! ### The restart request -/

/-- R10, R31: sampling writes the port record and the model's own input fields, and drops the one-tick outputs. -/
theorem State.sample_eq (s : State) : s.sample = { s with
    inp := s.sample.inp, inputs := s.sample.inputs, drawn := s.sample.drawn, done := false, drvValid := false } := by
  unfold State.sample
  split <;> rfl

/-- Settles O14: the request stands in IDLE only (R32 d), and there it keeps `cmd_ready` low. -/
theorem restartRequestHoldsEverything : Obligations.RestartRequestHoldsEverything := by
  refine ⟨fun s hs hreq hrst => ?_, fun s hreq => ?_⟩
  · obtain ⟨hwf, hslot, hl, -, -, hidle, -⟩ := hs
    have hready : s.sample.cmdReady = false := State.cmdReady_of_restartReq (by simpa using hreq)
    rw [step_of_idle hwf hslot hl hrst (hidle hreq), State.fetchCommand_of_not_ready hready]
    exact congrArg _ s.sample_eq
  · have hready := State.cmdReady_of_restartReq hreq
    exact ⟨exec_command_of_not_ready hready (.inl rfl), exec_command_of_not_ready hready (.inr rfl)⟩

end Sys2Proof.Machine
end

