-- ==== Sys2Proof/Proofs/ResetAndHazards.lean ====
section
/-! A command presented while `cmd_ready = 0` has no effect (R170, R242), and a reset tick gives every register the value of R31
(R230, R232). -/

namespace Sys2Proof

/-- The sampled levels with `v` and `op` on the ports `cmd_valid` and `cmd_op` (R10). -/
def Inputs.withCommand (v : Bool) (op : BitVec 2) (x : Inputs) : Inputs := { x with cmdValid := v, cmdOp := op }

end Sys2Proof

namespace Sys2Proof.Machine

/-! ### What a tick makes of the sampled state, case by case -/

section
variable {s : State}

theorem State.fetchTick_of_reset (hrst : s.inp.rst = true) : s.fetchTick = .quiet s.doReset := if_pos hrst

theorem State.fetchTick_of_illegal (hrst : s.inp.rst = false) (hl : s.seqLegal = false) :
    s.fetchTick = .refuse .unreachableSequencer := by
  simp [State.fetchTick, hrst, hl]

theorem State.fetchTick_of_operation {i : Instr} (hrst : s.inp.rst = false) (hl : s.seqLegal = true)
    (hop : s.ph.operation = some i) : s.fetchTick = .run i s := by
  simp [State.fetchTick, hrst, hl, hop]

theorem State.fetchTick_of_no_operation (hrst : s.inp.rst = false) (hl : s.seqLegal = true)
    (hop : s.ph.operation = none) : s.fetchTick = s.fetchCommand := by
  simp [State.fetchTick, hrst, hl, hop]

end

/-! ### The command port while `cmd_ready = 0` -/

section
variable {f : Inputs → Inputs} {s : State}

theorem State.sample_mapInp {x : Inputs} {rest : List Inputs} (hinputs : s.inputs = x :: rest) :
    ({ s with inputs := f x :: rest } : State).sample = s.sample.mapInp f := by
  rw [State.sample_of_placed hinputs]
  rfl

/-- R170, R242: a tick that accepts no command reads `rst` and the answer port only. -/
theorem State.fetchTick_mapInp_of_not_ready (hf : KeepsAnswerPort f) (hfrst : (f s.inp).rst = s.inp.rst)
    (hready : s.cmdReady = false) : (s.mapInp f).fetchTick.outcome = Result.mapInp f s.fetchTick.outcome := by
  have hrst' (b : Bool) (h : s.inp.rst = b) : (s.mapInp f).inp.rst = b := hfrst.trans h
  cases hrst : s.inp.rst with
  | true =>
    rw [fetchTick_of_reset hrst, fetchTick_of_reset (hrst' _ hrst)]
    rfl
  | false =>
    cases hl : s.seqLegal with
    | false =>
      rw [fetchTick_of_illegal hrst hl, fetchTick_of_illegal (hrst' _ hrst) hl]
      rfl
    | true =>
      cases hop : s.ph.operation with
      | some i =>
        rw [fetchTick_of_operation hrst hl hop, fetchTick_of_operation (hrst' _ hrst) hl hop]
        exact exec_operation_mapInp s hf hop
      | none =>
        rw [fetchTick_of_no_operation hrst hl hop, fetchTick_of_no_operation (hrst' _ hrst) hl hop,
          fetchCommand_of_not_ready hready, fetchCommand_of_not_ready (s := s.mapInp f) hready]
        rfl

theorem step_mapInp_of_not_ready (hf : KeepsAnswerPort f) (hfrst : ∀ x, (f x).rst = x.rst) (hwf : s.cfg.wf = true)
    (hslot : s.slot = none) (hready : s.cmdReady = false) {x : Inputs} {rest : List Inputs}
    (hinputs : s.inputs = x :: rest) : step { s with inputs := f x :: rest } = Result.mapInp f (step s) := by
  have hready' : s.sample.cmdReady = false := by simpa [State.cmdReady] using hready
  rw [step_eq_outcome s hwf hslot, ← State.fetchTick_mapInp_of_not_ready hf (hfrst _) hready',
    ← State.sample_mapInp hinputs]
  exact step_eq_outcome _ hwf hslot

end

theorem keepsAnswerPort_withCommand (v : Bool) (op : BitVec 2) : KeepsAnswerPort (Inputs.withCommand v op) :=
  fun _ => ⟨rfl, rfl, rfl⟩

/-- Settles O15: only IDLE reads the command port, and a command found there while `cmd_ready = 0` changes nothing. -/
theorem commandIgnoredWhenNotReady : Obligations.CommandIgnoredWhenNotReady := by
  intro s t x rest v op hslot hready hinputs h
  have hstep := step_mapInp_of_not_ready (keepsAnswerPort_withCommand v op) (fun _ => rfl) (step_cases hslot h).1 hslot
    hready hinputs
  rw [h] at hstep
  exact hstep

/-! ### Reset -/

theorem State.resetOf_raw_getElem (c : Config) (j : Fin 6) : (State.resetOf c).raw[j] = 0x00#8 := by
  fin_cases j <;> rfl

/-- R31: the bounds after reset, as signed numbers. -/
theorem State.resetOf_bounds_toInt {c : Config} (hwf : c.wf = true) (a : Fin 4) :
    (State.resetOf c).calMax[a].toInt = c.calSeed ∧ (State.resetOf c).calMin[a].toInt = -(c.calSeed : Int) := by
  have hseed : (State.resetOf c).calMax[a] = BitVec.ofNat 8 c.calSeed ∧
      (State.resetOf c).calMin[a] = -BitVec.ofNat 8 c.calSeed := by
    fin_cases a <;> exact ⟨rfl, rfl⟩
  rw [hseed.1, hseed.2]
  exact calSeed_toInt hwf

/-- Settles O8: reset is asked before anything else (R208 a), and its tick leaves the reset state of the build. -/
theorem resetTick : Obligations.ResetTick := by
  intro s hwf hslot hrst
  refine ⟨s.sample.doReset, WaitsAt.step_of_reset hwf ⟨rfl, hslot, rfl, rfl, rfl⟩ hrst, ?_⟩
  simpa using And.intro (State.resetOf_raw_getElem s.cfg) (State.resetOf_bounds_toInt hwf)

end Sys2Proof.Machine
end
